-- ==== Sys2Proof/Word.lean ====
section
/-! DEFINITION. The word types of the block (00_scope.md R7). A value of n bytes is the bit vector of its
little-endian reading (20_memory.md R35): byte `B[j]` is bits `8j+7 .. 8j`, so every view of a container
(R8) is a range of the same bits and nothing is converted (R36). -/

namespace Sys2Proof

/-- One byte of memory or of a register. -/
abbrev Byte := BitVec 8

/-- A 64-bit register of the window, an address or a length (R13, R16, R17, R18). -/
abbrev Word := BitVec 64

/-- A 16-byte lane: the operand of one AES round (R8, R74). -/
abbrev Lane := BitVec 128

/-- A 64-byte value: a container's bytes, DATA, a stream, IV or RET (R21, R22, R25 to R27). -/
abbrev Val := BitVec 512

end Sys2Proof
end

