-- ==== Sys2Proof/Syntax.lean ====
section
/-! DEFINITION. The command set (30_encoding.md R50 to R53): one constructor per row of the opcode table. -/

namespace Sys2Proof

/-- A view width of a container (00_scope.md R10): codes 0 to 4. The number is the width in bits. -/
inductive ViewWidth where
  | w32 | w64 | w128 | w256 | w512
  deriving DecidableEq, Repr, Inhabited

/-- What the field `wa` names (R51): a view width, or code 7, `TAG`, "use the container's tag". -/
inductive ViewSel where
  | of (a : ViewWidth)
  | tag
  deriving DecidableEq, Repr

/-- A processing width W (R10, R51): codes 0 to 2. -/
inductive ProcWidth where
  | w128 | w256 | w512
  deriving DecidableEq, Repr, Inhabited

/-- The commands (R52). Container numbers are two bits wide (R51). -/
inductive Instr where
  /-- NOP (R64). -/
  | nop
  /-- HASH c`d`, w`w`, r`r` [, aligned] (R88); `r` must not be `tag` (R51). -/
  | hash (d : Fin 4) (w : ProcWidth) (r : ViewSel) (aligned : Bool)
  /-- CZERO c`d`, t`a` (R65). -/
  | czero (d : Fin 4) (a : ViewSel)
  /-- CCOPY c`d`, c`src`, t`a` (R66). -/
  | ccopy (d src : Fin 4) (a : ViewSel)
  /-- CGET c`src`, t`a`, `idx` (R69). -/
  | cget (src : Fin 4) (a : ViewSel) (idx : Nat)
  /-- CPUT c`d`, t`a`, `idx` (R71). -/
  | cput (d : Fin 4) (a : ViewSel) (idx : Nat)
  /-- CEQ c`x`, c`y` (R72). -/
  | ceq (x y : Fin 4)
  deriving DecidableEq, Repr

end Sys2Proof
end

