-- ==== Sys2Proof/WellFormed.lean ====
section
/-! DEFINITION. Which commands have an encoding (30_encoding.md R51, R56): an assembler refuses `tag` in HASH
and an index above 15. Whether a HASH's processing width is implemented is a parameter of the instance, not of
the syntax (R59), and is checked when the command executes. -/

namespace Sys2Proof

/-- The two checks of R56. -/
def Instr.wellFormed : Instr → Bool
  | .nop => true
  | .hash _ _ r _ => decide (r ≠ .tag)
  | .czero _ _ => true
  | .ccopy _ _ _ => true
  | .cget _ _ idx => decide (idx < 16)
  | .cput _ _ idx => decide (idx < 16)
  | .ceq _ _ => true

end Sys2Proof
end

