-- ==== Sys2Proof/Decode.lean ====
section
/-! DEFINITION. Decoding the 64-bit value of a CMD write (30_encoding.md R54), total, rejecting by name; then the
encoder, written from the same tables (R50 to R53), and the opcode table itself. -/

namespace Sys2Proof

/-! ### Width codes (00_scope.md R10) -/

/-- The width a view code names, in bits. -/
def ViewWidth.bits : ViewWidth → Nat
  | .w32 => 32 | .w64 => 64 | .w128 => 128 | .w256 => 256 | .w512 => 512

/-- The bytes of an element of this width. -/
def ViewWidth.bytes (a : ViewWidth) : Nat := a.bits / 8

/-- The 3-bit code of a view width. -/
def ViewWidth.code : ViewWidth → Nat
  | .w32 => 0 | .w64 => 1 | .w128 => 2 | .w256 => 3 | .w512 => 4

/-- The 3-bit code of a `wa` field. -/
def ViewSel.code : ViewSel → Nat
  | .of a => a.code
  | .tag => 7

/-- `width(code)` of a processing width, in bits. -/
def ProcWidth.bits : ProcWidth → Nat
  | .w128 => 128 | .w256 => 256 | .w512 => 512

/-- The 2-bit code of a processing width. -/
def ProcWidth.code : ProcWidth → Nat
  | .w128 => 0 | .w256 => 1 | .w512 => 2

/-- Codes 5 and 6 are reserved. -/
def viewSelOfCode : Nat → Option ViewSel
  | 0 => some (.of .w32)
  | 1 => some (.of .w64)
  | 2 => some (.of .w128)
  | 3 => some (.of .w256)
  | 4 => some (.of .w512)
  | 7 => some .tag
  | _ => none

/-- Code 3 is reserved. -/
def procWidthOfCode : Nat → Option ProcWidth
  | 0 => some .w128
  | 1 => some .w256
  | 2 => some .w512
  | _ => none

/-! ### Decode -/

/-- Why a CMD write is ILLEGAL (R55, R117). Every reason has the same effect (R117); the names are the model's. -/
inductive IllegalCause where
  /-- Bits [63:32] of the write are not zero. -/
  | upperHalf
  /-- Bits [31:18] of the word are not zero. -/
  | reservedBits
  /-- Opcode 0x7 to 0xF. -/
  | reservedOpcode
  /-- A field the opcode does not use is not zero. -/
  | unusedField
  /-- View-width code 5 or 6. -/
  | reservedViewWidth
  /-- View-width code 7 in HASH. -/
  | tagInHash
  /-- Processing-width code 3. -/
  | reservedProcWidth
  deriving DecidableEq, Repr

/-- What a CMD write decodes to. -/
inductive Decoded where
  | command (i : Instr)
  | illegal (why : IllegalCause)
  deriving DecidableEq, Repr

/-- Bits `hi = lo + width - 1` down to `lo` of a CMD write, as an unsigned number (R50). -/
def field (v : Word) (lo width : Nat) : Nat := (v.extractLsb' lo width).toNat

/-- The container number of a 2-bit field. -/
def containerOf (v : Word) (lo : Nat) : Fin 4 := (v.extractLsb' lo 2).toFin

/-- The command with view-width field `wa`, where codes 5 and 6 are ILLEGAL. -/
def withView (wa : Nat) (k : ViewSel → Decoded) : Decoded :=
  match viewSelOfCode wa with
  | some a => k a
  | none => .illegal .reservedViewWidth

/-- The HASH row of R54. -/
def decodeHash (v : Word) : Decoded :=
  if field v 6 2 ≠ 0 ∨ field v 14 4 ≠ 0 then .illegal .unusedField
  else withView (field v 8 3) fun r =>
    if r = .tag then .illegal .tagInHash
    else
      match procWidthOfCode (field v 11 2) with
      | some w => .command (.hash (containerOf v 4) w r (v.getLsbD 13))
      | none => .illegal .reservedProcWidth

/-- The CZERO row of R54. -/
def decodeCzero (v : Word) : Decoded :=
  if field v 6 2 ≠ 0 ∨ field v 11 2 ≠ 0 ∨ field v 13 1 ≠ 0 ∨ field v 14 4 ≠ 0 then .illegal .unusedField
  else withView (field v 8 3) fun a => .command (.czero (containerOf v 4) a)

/-- The CCOPY row of R54. -/
def decodeCcopy (v : Word) : Decoded :=
  if field v 11 2 ≠ 0 ∨ field v 13 1 ≠ 0 ∨ field v 14 4 ≠ 0 then .illegal .unusedField
  else withView (field v 8 3) fun a => .command (.ccopy (containerOf v 4) (containerOf v 6) a)

/-- The CGET row of R54. -/
def decodeCget (v : Word) : Decoded :=
  if field v 6 2 ≠ 0 ∨ field v 11 2 ≠ 0 ∨ field v 13 1 ≠ 0 then .illegal .unusedField
  else withView (field v 8 3) fun a => .command (.cget (containerOf v 4) a (field v 14 4))

/-- The CPUT row of R54. -/
def decodeCput (v : Word) : Decoded :=
  if field v 6 2 ≠ 0 ∨ field v 11 2 ≠ 0 ∨ field v 13 1 ≠ 0 then .illegal .unusedField
  else withView (field v 8 3) fun a => .command (.cput (containerOf v 4) a (field v 14 4))

/-- The CEQ row of R54. -/
def decodeCeq (v : Word) : Decoded :=
  if field v 8 3 ≠ 0 ∨ field v 11 2 ≠ 0 ∨ field v 13 1 ≠ 0 ∨ field v 14 4 ≠ 0 then .illegal .unusedField
  else .command (.ceq (containerOf v 4) (containerOf v 6))

/-- Decode (R54). The check of W against P_W_SUPPORTED depends on the instance, not on the word (R59); `execHash`
makes it first, with the same effect (log 8). -/
def decode (v : Word) : Decoded :=
  if field v 32 32 ≠ 0 then .illegal .upperHalf
  else if field v 18 14 ≠ 0 then .illegal .reservedBits
  else
    match field v 0 4 with
    | 0 => if field v 4 28 ≠ 0 then .illegal .unusedField else .command .nop
    | 1 => decodeHash v
    | 2 => decodeCzero v
    | 3 => decodeCcopy v
    | 4 => decodeCget v
    | 5 => decodeCput v
    | 6 => decodeCeq v
    | _ => .illegal .reservedOpcode

/-- What the decoder reads from a command word numbered as the opcode table numbers it: bit 0 is the word's least
significant bit, and every bit from `nbits` on is zero, those of the CMD write's upper half among them. -/
def decodeTableWord (nbits w : Nat) : Option Instr :=
  match decode (BitVec.ofNat 64 (w % 2 ^ nbits)) with
  | .command i => some i
  | .illegal _ => none

/-! ### Encode -/

/-- A command word from its fields (R50); bits [31:18] are zero. -/
def packFields (op ca cb wa wp aln idx : Nat) : BitVec 32 :=
  BitVec.ofNat 32 (op + ca * 2 ^ 4 + cb * 2 ^ 6 + wa * 2 ^ 8 + wp * 2 ^ 11 + aln * 2 ^ 13 + idx * 2 ^ 14)

/-- The command word of a well-formed command (R53, R56). -/
def encode : Instr → BitVec 32
  | .nop => packFields 0 0 0 0 0 0 0
  | .hash d w r aligned => packFields 1 d.val 0 r.code w.code aligned.toNat 0
  | .czero d a => packFields 2 d.val 0 a.code 0 0 0
  | .ccopy d src a => packFields 3 d.val src.val a.code 0 0 0
  | .cget src a idx => packFields 4 src.val 0 a.code 0 0 idx
  | .cput d a idx => packFields 5 d.val 0 a.code 0 0 idx
  | .ceq x y => packFields 6 x.val y.val 0 0 0 0

/-- The 64-bit value a host writes to CMD to issue a command (R14, R50): bits [63:32] are zero. -/
def cmdValue (i : Instr) : Word := (encode i).setWidth 64

/-! ### The opcode table (R53) -/

/-- One row: a word matches when `word &&& mask = match`. -/
structure TableRow where
  mnemonic : String
  pattern : BitVec 32
  mask : BitVec 32
  deriving DecidableEq, Repr

/-- The row of each command. -/
def Instr.row : Instr → TableRow
  | .nop => ⟨"NOP", 0x00000000, 0xFFFFFFFF⟩
  | .hash _ _ _ _ => ⟨"HASH", 0x00000001, 0xFFFFC0CF⟩
  | .czero _ _ => ⟨"CZERO", 0x00000002, 0xFFFFF8CF⟩
  | .ccopy _ _ _ => ⟨"CCOPY", 0x00000003, 0xFFFFF80F⟩
  | .cget _ _ _ => ⟨"CGET", 0x00000004, 0xFFFC38CF⟩
  | .cput _ _ _ => ⟨"CPUT", 0x00000005, 0xFFFC38CF⟩
  | .ceq _ _ => ⟨"CEQ", 0x00000006, 0xFFFFFF0F⟩

/-- A word matches a row (R53). -/
def TableRow.matchesWord (r : TableRow) (word : BitVec 32) : Bool := word &&& r.mask == r.pattern

end Sys2Proof
end

