-- ==== Sys2Proof/Config.lean ====
section
/-! DEFINITION. The parameters the spec leaves open (00_scope.md R5) and the free values. The parameters are held as
plain data in State, so that every statement over all states is a statement for every instance. -/

namespace Sys2Proof

/-- The addresses `lo ≤ a < hi`. -/
structure Region where
  lo : Nat
  hi : Nat
  deriving DecidableEq, Repr

/-- One instance's parameters. -/
structure Platform where
  /-- P_BASE: where the register window stands in the host's address space (R13). -/
  base : Nat
  /-- 256 ∈ P_W_SUPPORTED (R19). 128 is always in the set. -/
  w256 : Bool
  /-- 512 ∈ P_W_SUPPORTED (R19). -/
  w512 : Bool
  /-- P_MEM_ADMITS is false of a request that touches one of these regions (20_memory.md R38). -/
  refusedRegions : List Region
  /-- P_MEM_ADMITS is also false of these requests (address, byte count): with them any predicate can be given. -/
  refusedRequests : List (Nat × Nat)
  /-- Regions whose reads have side effects: the values read there are not to be assumed (R41). -/
  sideEffect : List Region
  deriving DecidableEq, Repr

/-- The instance State.reset stands in: the one the spec's vectors take "unless a vector says otherwise"
(95_test_vectors.md): P_W_SUPPORTED = {128}, every request admitted. DESIGN CHOICE, unsafe (log 4): no statement
rests on it. -/
def Config.platform : Platform :=
  { base := 0, w256 := false, w512 := false, refusedRegions := [], refusedRequests := [], sideEffect := [] }

/-- The byte the engine reads where the spec says "any value" (R44 item 2, R41): the n-th draw. It has no body: no
proof can see its values. -/
opaque Config.freeByte : Nat → Byte

/-! What the engine's registers hold after a run has ended: "any value" (93_implementation_defined.md S2, 10_state.md R28,
R29; log 2). Each is the n-th draw, without a body. -/

/-- A draw for IV, a stream or RET. -/
opaque Config.freeVal : Nat → Val

/-- A draw for OP.src, OP.len or OP.seed. -/
opaque Config.freeWord : Nat → Word

/-- A draw for OP.ca. -/
opaque Config.freeContainer : Nat → Fin 4

/-- A draw for OP.R. -/
opaque Config.freeViewWidth : Nat → ViewWidth

/-- A draw for OP.W. -/
opaque Config.freeProcWidth : Nat → ProcWidth

/-- A draw for BLK, RCNT or WCNT, before their ranges (R29) bound it. -/
opaque Config.freeCount : Nat → Nat

end Sys2Proof
end

