-- ==== Sys2Proof/Machine/State.lean ====
section
/-! DEFINITION. The state of the block (10_state.md), of the platform memory it reads (20_memory.md) and of the other
agents' turns still to come (43_host_interface.md R112). -/

namespace Sys2Proof.Machine

/-- Four like things numbered 0 to 3: the containers (R22), the streams (R26). -/
structure Quad (α : Type) where
  x0 : α
  x1 : α
  x2 : α
  x3 : α
  deriving DecidableEq, Repr

/-- STATUS.ERR (10_state.md R15, 60_exceptions.md R116). Codes 5 to 15 are never produced. -/
inductive ErrCode where
  | ok | illegal | range | align | bus
  deriving DecidableEq, Repr

/-- A container register (R22): 64 bytes and a view-width tag. The tag is one of the five widths, so it is never
5, 6 or 7 (R23). -/
structure Container where
  B : Val
  T : ViewWidth
  deriving DecidableEq, Repr

/-- The operands a HASH copies at acceptance (R29, 42_hash_engine.md R91). -/
structure Op where
  src : Word
  len : Word
  seed : Word
  ca : Fin 4
  R : ViewWidth
  W : ProcWidth
  deriving DecidableEq, Repr

/-- PHASE (R29): IDLE exactly when STATUS.BUSY = 0. -/
inductive Phase where
  | idle | absorb | tail | rotate | whiten | complete
  deriving DecidableEq, Repr

/-- The sequencer and the engine's internal registers (R25 to R29). NB is not stored: it is OP.len >> 8 (R29). While
PHASE = IDLE all but PHASE are unspecified, and no rule reads them (R28, R29; log 2). -/
structure Engine where
  phase : Phase
  op : Op
  iv : Val
  streams : Quad Val
  ret : Val
  blk : Nat
  rcnt : Nat
  wcnt : Nat
  /-- MODEL: bytes of the input buffer that are any value for the run in progress (20_memory.md R44; log 6). -/
  raced : List Nat
  deriving DecidableEq, Repr

/-- Platform memory: strictly rising addresses, no entry equal to what an unlisted address reads as. -/
abbrev Memory := List Host.Cell

/-- One host access in the host's address space: the byte address and the access size in bytes. -/
inductive HostAccess where
  | read (addr size : Nat)
  | write (addr size : Nat) (v : Word)
  deriving DecidableEq, Repr

/-- One step of an agent outside the engine's own progress (R112; log 1). -/
inductive Turn where
  /-- The host accesses its address space (R106). -/
  | host (a : HostAccess)
  /-- The engine takes one micro-step, if it has one. -/
  | engine
  /-- The host polls STATUS until BUSY = 0 (30_encoding.md R57): the engine steps until its run ends. -/
  | wait
  /-- An agent other than the engine stores a byte to platform memory (20_memory.md R44). -/
  | store (addr : Word) (b : Byte)
  /-- The host orders its earlier stores: P_HOST_ORDER (R44 item 1). -/
  | order
  /-- The reset input is asserted (70_reset_and_hazards.md R129). -/
  | reset
  deriving DecidableEq, Repr

/-- The whole state. -/
structure State where
  /-- STATUS.EQ (R15). -/
  eq : Bool
  /-- STATUS.ERR (R15). -/
  err : ErrCode
  /-- STATUS.WBUSY (R15). -/
  wbusy : Bool
  /-- SRC (R16). -/
  src : Word
  /-- LEN (R17). -/
  len : Word
  /-- SEED (R18). -/
  seed : Word
  /-- DATA.B[0..64) (R21). -/
  data : Val
  /-- C[0] to C[3] (R22). -/
  cont : Quad Container
  /-- The sequencer and the internal registers (R25 to R29). -/
  eng : Engine
  /-- Platform memory (R34). -/
  mem : Memory
  /-- MODEL: addresses of stores that P_HOST_ORDER has not ordered yet (R44 item 1; log 6). -/
  unordered : List Nat
  /-- The instance's parameters (00_scope.md R5). -/
  platform : Platform
  /-- The turns still to come, the next one first (R112; log 1). -/
  agenda : List Turn
  /-- The values returned to the host's reads, oldest first (R111; log 5). -/
  readLog : List Word
  /-- MODEL: free values drawn so far (log 7). -/
  draws : Nat
  deriving DecidableEq, Repr

/-- The block has no trap and no fault: every misuse is an error code in STATUS.ERR (60_exceptions.md R123). So no
step stops with a fault, and there is no constructor. -/
inductive Fault where
  deriving DecidableEq, Repr

/-- Why a step has no meaning. -/
inductive Refusal where
  /-- Raised by an arm of `exec` for an instruction that has no meaning yet; safe. No arm raises it. -/
  | notModelled (mnemonic : String)
  /-- Raised by a host access that touches the window and is not a 64-bit access at a multiple of 8: "A model must
  refuse such a host step rather than guess an effect" (R106); safe. -/
  | unadmittedAccess (addr size : Nat)
  deriving DecidableEq, Repr

/-- A container after reset (R24). -/
def Container.reset : Container := { B := 0#512, T := .w512 }

/-- The engine after reset: PHASE is IDLE (R29). The spec calls every other register's value unspecified ("any value",
93_implementation_defined.md S1); the model names zero, and for OP.R and OP.W the width with code 0 (log 2, DESIGN
CHOICE, unsafe): no statement rests on it. -/
def Engine.reset : Engine :=
  { phase := .idle
    op := { src := 0#64, len := 0#64, seed := 0#64, ca := 0, R := .w32, W := .w128 }
    iv := 0#512, streams := ⟨0#512, 0#512, 0#512, 0#512⟩, ret := 0#512
    blk := 0, rcnt := 0, wcnt := 0, raced := [] }

/-- The block right after reset (70_reset_and_hazards.md R130) in an instance with parameters `p`, with nothing listed in
platform memory (log 3) and no turn of another agent to come. -/
def State.resetWith (p : Platform) : State :=
  { eq := false, err := .ok, wbusy := false
    src := 0#64, len := 0#64, seed := 0#64
    data := 0#512
    cont := ⟨.reset, .reset, .reset, .reset⟩
    eng := .reset
    mem := [], unordered := []
    platform := p
    agenda := [], readLog := [], draws := 0 }

/-- The machine right after reset. -/
def State.reset : State := State.resetWith Config.platform

end Sys2Proof.Machine
end

