-- ==== Sys2Proof/Machine/Ops.lean ====
section
/-! DEFINITION. The operations every meaning shares: bytes of a value (00_scope.md R7), the four-fold files, field updates
of the state, platform memory and the engine's read of it (20_memory.md R38), and taking an error
(60_exceptions.md R115). -/

namespace Sys2Proof.Machine

/-! ### Bytes and integers (R7, R8) -/

/-- The little-endian reading of a sequence of digits of `w` bits, the first least significant: `le` of R7 for
bytes, and its counterpart for 64-bit words and 128-bit lanes. -/
def packLE {w : Nat} : List (BitVec w) → Nat
  | [] => 0
  | x :: xs => x.toNat + 2 ^ w * packLE xs

/-- The value of `n` bits whose digits are `xs`, missing digits zero. -/
def ofDigits (n : Nat) {w : Nat} (xs : List (BitVec w)) : BitVec n := BitVec.ofNat n (packLE xs)

/-- `B[j]`: byte j of a value (R7). -/
def byteAt {n : Nat} (v : BitVec n) (j : Nat) : Byte := v.extractLsb' (8 * j) 8

/-- The 64-byte value with byte j = `f j`. -/
def tabulate (f : Nat → Byte) : Val := ofDigits 512 ((List.range 64).map f)

/-- `lane(v, L)` (R8). -/
def lane (v : Val) (L : Nat) : Lane := v.extractLsb' (128 * L) 128

/-! ### Files of four -/

/-- Entry `i` of a file of four. -/
def Quad.get {α : Type} (q : Quad α) (i : Fin 4) : α :=
  match i with
  | 0 => q.x0
  | 1 => q.x1
  | 2 => q.x2
  | 3 => q.x3

/-- The file with entry `i` replaced. -/
def Quad.set {α : Type} (q : Quad α) (i : Fin 4) (a : α) : Quad α :=
  match i with
  | 0 => { q with x0 := a }
  | 1 => { q with x1 := a }
  | 2 => { q with x2 := a }
  | 3 => { q with x3 := a }

/-! ### Field updates -/

def State.setEq (s : State) (b : Bool) : State := { s with eq := b }
def State.setErr (s : State) (e : ErrCode) : State := { s with err := e }
def State.setWbusy (s : State) (b : Bool) : State := { s with wbusy := b }
def State.setSrc (s : State) (v : Word) : State := { s with src := v }
def State.setLen (s : State) (v : Word) : State := { s with len := v }
def State.setSeed (s : State) (v : Word) : State := { s with seed := v }
def State.setData (s : State) (v : Val) : State := { s with data := v }
def State.setCont (s : State) (c : Fin 4) (k : Container) : State := { s with cont := s.cont.set c k }
def State.setEng (s : State) (e : Engine) : State := { s with eng := e }
def State.setMem (s : State) (m : Memory) : State := { s with mem := m }
def State.setUnordered (s : State) (l : List Nat) : State := { s with unordered := l }
def State.setAgenda (s : State) (l : List Turn) : State := { s with agenda := l }
def State.logRead (s : State) (v : Word) : State := { s with readLog := s.readLog ++ [v] }
def State.addDraws (s : State) (n : Nat) : State := { s with draws := s.draws + n }

/-! ### Sequencer (10_state.md R29, R30) -/

/-- STATUS.BUSY: 1 exactly when PHASE is not IDLE (R30). -/
def State.busy (s : State) : Bool := decide (s.eng.phase ≠ .idle)

/-- NB: the number of full blocks (R29, 42_hash_engine.md R92). -/
def Op.nb (o : Op) : Nat := o.len.toNat / 256

/-- r: the number of tail bytes (R92). -/
def Op.tailLen (o : Op) : Nat := o.len.toNat % 256

/-- Whether an address is in `[OP.src, OP.src + OP.len)`, the input buffer of the run (20_memory.md R39). -/
def Op.inBuffer (o : Op) (a : Nat) : Bool := decide (o.src.toNat ≤ a ∧ a < o.src.toNat + o.len.toNat)

/-- Micro-steps of the absorption of `o` from block `blk` on. -/
def Op.absorbSteps (o : Op) (blk : Nat) : Nat := (o.nb - blk) + (if o.tailLen = 0 then 0 else 1)

/-- Micro-steps the run still takes if no read is refused (R105). -/
def Engine.stepsLeft (e : Engine) : Nat :=
  match e.phase with
  | .idle => 0
  | .absorb => e.op.absorbSteps e.blk + 22
  | .tail => 1 + 22
  | .rotate => (16 - e.rcnt) + 6
  | .whiten => (5 - e.wcnt) + 1
  | .complete => 1

end Sys2Proof.Machine

namespace Sys2Proof

/-! ### The instance's parameters (R5) -/

/-- W ∈ P_W_SUPPORTED (R5, R19). -/
def Platform.supports (p : Platform) : ProcWidth → Bool
  | .w128 => true
  | .w256 => p.w256
  | .w512 => p.w512

/-- Whether a range of `n` bytes at `a` touches a region. -/
def Region.touches (g : Region) (a n : Nat) : Bool := decide (a < g.hi ∧ g.lo < a + n)

/-- P_MEM_ADMITS(addr, n) (R38). -/
def Platform.admits (p : Platform) (a n : Nat) : Bool :=
  !(p.refusedRegions.any fun g => g.touches a n) && !(p.refusedRequests.any fun q => q.1 == a && q.2 == n)

/-- Whether reads of this byte have side effects (R41). -/
def Platform.hasSideEffect (p : Platform) (a : Nat) : Bool := p.sideEffect.any fun g => g.touches a 1

end Sys2Proof

namespace Sys2Proof.Machine

/-! ### Platform memory (R34) -/

/-- What an address nothing has written reads as (log 3, DESIGN CHOICE, unsafe). -/
def unlistedByte : Byte := 0x00#8

/-- The byte at an address. -/
def Memory.read : Memory → Nat → Byte
  | [], _ => unlistedByte
  | (k, b) :: m, a => if a = k then b else Memory.read m a

/-- The memory with one byte replaced, in canonical form. -/
def Memory.write : Memory → Nat → Byte → Memory
  | [], a, b => if b = unlistedByte then [] else [(a, b)]
  | (k, c) :: m, a, b =>
    if a < k then (if b = unlistedByte then (k, c) :: m else (a, b) :: (k, c) :: m)
    else if a = k then (if b = unlistedByte then m else (a, b) :: m)
    else (k, c) :: Memory.write m a b

/-- The canonical form: 64-bit addresses, strictly rising, no entry equal to what an unlisted address reads as. -/
def Memory.wf : Memory → Bool
  | [] => true
  | (k, b) :: m => decide (k < 2 ^ 64) && decide (b ≠ unlistedByte) && (m.all fun c => decide (k < c.1)) && Memory.wf m

/-! ### The engine's read (R38, R44) -/

/-- The addresses that other agents will still store to before a run with `n` more engine steps ends: R44 item 2 makes a
byte written "while STATUS.BUSY = 1 for this HASH" any value, whether the store comes before or after the
engine's read of it (log 6). A `wait` or the end of the list lets the run end first. -/
def storesWhileBusy : Nat → List Turn → List Nat
  | _, [] => []
  | n, t :: rest =>
    if n = 0 then []
    else
      match t with
      | .store a _ => a.toNat :: storesWhileBusy n rest
      | .engine => storesWhileBusy (n - 1) rest
      | .host _ => storesWhileBusy n rest
      | .order => storesWhileBusy n rest
      | .wait => []
      | .reset => []

/-- Whether the engine's read of this byte in this step returns any value (R44 item 2, S3, S12; R41). -/
def isAnyValue (s : State) (a : Nat) : Bool :=
  s.eng.raced.contains a || (storesWhileBusy (s.eng.stepsLeft - 1) s.agenda).contains a || s.platform.hasSideEffect a

/-- The byte the memory oracle answers for byte `j` of a request at `addr` (R38). -/
def oracleByte (s : State) (addr j : Nat) : Byte :=
  if isAnyValue s (addr + j) then Config.freeByte (s.draws + j) else s.mem.read (addr + j)

/-- MemRead(addr, n): the bytes, or none for BusError (R38). -/
def memRead (s : State) (addr n : Nat) : Option (List Byte) :=
  if n = 0 then some []
  else if addr + n > 2 ^ 64 then none
  else if s.platform.admits addr n then some ((List.range n).map (oracleByte s addr))
  else none

/-! ### The end of a run (10_state.md R28, R29) -/

/-- The engine once a run has ended: PHASE is IDLE, and every other register is any value in its range (R28, R29; S2;
log 2). -/
def freeEngine (n : Nat) : Engine :=
  let op : Op :=
    { src := Config.freeWord n, len := Config.freeWord (n + 1), seed := Config.freeWord (n + 2)
      ca := Config.freeContainer n, R := Config.freeViewWidth n, W := Config.freeProcWidth n }
  { phase := .idle, op := op
    iv := Config.freeVal n
    streams := ⟨Config.freeVal (n + 1), Config.freeVal (n + 2), Config.freeVal (n + 3), Config.freeVal (n + 4)⟩
    ret := Config.freeVal (n + 5)
    blk := Config.freeCount n % (op.nb + 1), rcnt := Config.freeCount (n + 1) % 17
    wcnt := Config.freeCount (n + 2) % 6
    raced := [] }

/-- A run ends, by completion or abort: PHASE is IDLE, so BUSY is 0. -/
def State.endRun (s : State) : State := (s.setEng (freeEngine s.draws)).addDraws 6

/-! ### Errors (60_exceptions.md R115) -/

/-- `raise Error(code)`: the one shared way a command fails. It sets STATUS.ERR and nothing else; the block saves
nothing, changes no mode and jumps nowhere (R123). -/
def State.raise (s : State) (code : ErrCode) : State := s.setErr code

/-- The abort of a run (42_hash_engine.md R102): ERR is BUS, BUSY is 0 and PHASE is IDLE; IV, S, RET and the counters are
left unspecified. -/
def State.abort (s : State) : State := (s.raise .bus).endRun

/-- A command is accepted: ERR is 0 until it fails (43_host_interface.md R107, 40_container.md R61). -/
def State.accept (s : State) : State := s.setErr .ok

end Sys2Proof.Machine
end

