-- ==== Sys2Proof/Machine/Flags.lean ====
section
/-! DEFINITION. The flags: STATUS (10_state.md R15, R32), CAP (R19) and the equality CEQ computes (40_container.md R72). -/

namespace Sys2Proof.Machine

/-- The code STATUS.ERR shows (60_exceptions.md R116). -/
def ErrCode.code : ErrCode → Nat
  | .ok => 0 | .illegal => 1 | .range => 2 | .align => 3 | .bus => 4

/-- STATUS as the host reads it (R15, 43_host_interface.md R111). -/
def statusWord (s : State) : Word :=
  BitVec.ofNat 64 (s.wbusy.toNat * 2 ^ 8 + s.err.code * 2 ^ 4 + s.eq.toNat * 2 ^ 1 + s.busy.toNat)

/-- CAP as the host reads it (R19). -/
def capWord (p : Platform) : Word := BitVec.ofNat 64 (1 + 2 * p.w256.toNat + 4 * p.w512.toNat)

/-- STATUS.WBUSY after a host write of `v` to STATUS: bit 8 clears it (43_host_interface.md R108). -/
def wbusyAfterWrite (v : Word) (wbusy : Bool) : Bool := if v.getLsbD 8 then false else wbusy

/-- Whether all 64 bytes agree (R72); tags play no part. -/
def sameBytes (a b : Val) : Bool := (List.range 64).all fun j => byteAt a j == byteAt b j

end Sys2Proof.Machine
end

