-- ==== Sys2Proof/Machine/Operands.lean ====
section
/-! DEFINITION. The operand forms of the container commands (40_container.md R62, R63, R68 to R71) and the DATA words
(10_state.md R21). -/

namespace Sys2Proof.Machine

/-- Width resolution (R62): `tag` names the container's tag. -/
def resolve (sel : ViewSel) (c : Container) : ViewWidth :=
  match sel with
  | .of a => a
  | .tag => c.T

/-- The element exists (R63). -/
def elemExists (a : ViewWidth) (idx : Nat) : Bool := decide (idx < 512 / a.bits)

/-- Element `idx` of the width-`a` view in the low bytes, zero filled (R68, R69). -/
def element (v : Val) (a : ViewWidth) (idx : Nat) : Val :=
  tabulate fun j => if j < a.bytes then byteAt v (a.bytes * idx + j) else 0x00#8

/-- The value with element `idx` of its width-`a` view replaced by the low bytes of `d` (R71). -/
def setElement (v : Val) (a : ViewWidth) (idx : Nat) (d : Val) : Val :=
  tabulate fun j =>
    if a.bytes * idx ≤ j ∧ j < a.bytes * idx + a.bytes then byteAt d (j - a.bytes * idx) else byteAt v j

/-- Word `k` of DATA as the host reads it (R21). -/
def dataWord (v : Val) (k : Nat) : Word := v.extractLsb' (64 * k) 64

/-- DATA after a host write of `x` to word `k` (R21, 43_host_interface.md R109). -/
def setDataWord (v : Val) (k : Nat) (x : Word) : Val :=
  tabulate fun j => if 8 * k ≤ j ∧ j < 8 * k + 8 then byteAt x (j - 8 * k) else byteAt v j

end Sys2Proof.Machine
end

