-- ==== Sys2Proof/Machine/Container.lean ====
section
/-! DEFINITION. The container commands (40_container.md R64 to R72): what an accepted command does. Each first sets ERR to 0
(R61); a failing one then sets ERR to its code and leaves all else as it was (R115). -/

namespace Sys2Proof.Machine

/-- NOP (R64). -/
def execNop (s : State) : Host.Outcome State Fault Refusal := .next s.accept

/-- CZERO (R65): zero bytes, the tag resolved against the container itself. -/
def execCzero (d : Fin 4) (a : ViewSel) (s : State) : Host.Outcome State Fault Refusal :=
  .next (s.accept.setCont d { B := 0#512, T := resolve a (s.cont.get d) })

/-- CCOPY (R66): the source's bytes, the tag resolved against the SOURCE. -/
def execCcopy (d src : Fin 4) (a : ViewSel) (s : State) : Host.Outcome State Fault Refusal :=
  .next (s.accept.setCont d { B := (s.cont.get src).B, T := resolve a (s.cont.get src) })

/-- CGET (R69). -/
def execCget (src : Fin 4) (a : ViewSel) (idx : Nat) (s : State) : Host.Outcome State Fault Refusal :=
  let c := s.cont.get src
  if elemExists (resolve a c) idx then .next (s.accept.setData (element c.B (resolve a c) idx))
  else .next (s.accept.raise .range)

/-- CPUT (R71). -/
def execCput (d : Fin 4) (a : ViewSel) (idx : Nat) (s : State) : Host.Outcome State Fault Refusal :=
  let c := s.cont.get d
  if elemExists (resolve a c) idx then
    .next (s.accept.setCont d { B := setElement c.B (resolve a c) idx s.data, T := c.T })
  else .next (s.accept.raise .range)

/-- CEQ (R72). -/
def execCeq (x y : Fin 4) (s : State) : Host.Outcome State Fault Refusal :=
  .next (s.accept.setEq (sameBytes (s.cont.get x).B (s.cont.get y).B))

end Sys2Proof.Machine
end

