-- ==== Sys2Proof/Machine/Aes.lean ====
section
/-! DEFINITION. The datapath (41_aes_datapath.md): the AES decryption round R75 to R80, the AES-merge R81 to R84 and the
lane rotation R85, R86. The spec marks R75 to R81 as general knowledge (93_implementation_defined.md G1 to G7); they are
rules of the spec and are followed as they stand (log 9). -/

namespace Sys2Proof.Machine

/-! ### Field arithmetic (R76) -/

/-- Multiplication by x modulo 0x11B. -/
def xtime (a : Byte) : Byte := (a <<< 1) ^^^ (if a.getLsbD 7 then 0x1B#8 else 0x00#8)

/-- `acc` xor the products of `xtime^k(a)` with the low `n` bits of `b`. -/
def gmulLoop : Nat → Byte → Byte → Byte → Byte
  | 0, _, _, acc => acc
  | n + 1, a, b, acc => gmulLoop n (xtime a) (b >>> 1) (if b.getLsbD 0 then acc ^^^ a else acc)

/-- `a • b` in GF(2^8). -/
def gmul (a b : Byte) : Byte := gmulLoop 8 a b 0x00#8

/-! ### The round (R75, R77 to R80) -/

/-- The rows of the table of R77, row `hi` written as the table writes it, entry `lo = 0` first. -/
def invSboxRows : List (BitVec 128) :=
  [0x52096ad53036a538bf40a39e81f3d7fb#128, 0x7ce339829b2fff87348e4344c4dee9cb#128,
   0x547b9432a6c2233dee4c950b42fac34e#128, 0x082ea16628d924b2765ba2496d8bd125#128]
  ++ [0x72f8f66486689816d4a45ccc5d65b692#128, 0x6c704850fdedb9da5e154657a78d9d84#128,
   0x90d8ab008cbcd30af7e45805b8b34506#128, 0xd02c1e8fca3f0f02c1afbd0301138a6b#128]
  ++ [0x3a9111414f67dcea97f2cfcef0b4e673#128, 0x96ac7422e7ad3585e2f937e81c75df6e#128,
   0x47f11a711d29c5896fb7620eaa18be1b#128, 0xfc563e4bc6d279209adbc0fe78cd5af4#128]
  ++ [0x1fdda8338807c731b11210592780ec5f#128, 0x60517fa919b54a0d2de57a9f93c99cef#128,
   0xa0e03b4dae2af5b0c8ebbb3c83539961#128, 0x172b047eba77d626e169146355210c7d#128]

/-- InvSbox[b] (R77). -/
def invSbox (b : Byte) : Byte :=
  (invSboxRows.getD (b.toNat / 16) 0#128).extractLsb' (8 * (15 - b.toNat % 16)) 8

/-- The lane with byte i = `f i`. -/
def tabulateLane (f : Nat → Byte) : Lane := ofDigits 128 ((List.range 16).map f)

/-- The lane byte that holds state cell `s[r][c]` (R75). -/
def cell (r c : Nat) : Nat := r + 4 * c

/-- InvShiftRows (R78): `s'[r][c] = s[r][(c - r) mod 4]`. -/
def invShiftRows (x : Lane) : Lane :=
  tabulateLane fun i => byteAt x (cell (i % 4) ((i / 4 + 4 - i % 4) % 4))

/-- InvSubBytes (R77). -/
def invSubBytes (x : Lane) : Lane := tabulateLane fun i => invSbox (byteAt x i)

/-- One row of the matrix of R79 applied to a column. -/
def mixRow (m0 m1 m2 m3 : Byte) (s0 s1 s2 s3 : Byte) : Byte :=
  gmul m0 s0 ^^^ gmul m1 s1 ^^^ gmul m2 s2 ^^^ gmul m3 s3

/-- Row `r` of InvMixColumns of a column (R79). -/
def invMixCell (r : Nat) (s0 s1 s2 s3 : Byte) : Byte :=
  match r with
  | 0 => mixRow 0x0e#8 0x0b#8 0x0d#8 0x09#8 s0 s1 s2 s3
  | 1 => mixRow 0x09#8 0x0e#8 0x0b#8 0x0d#8 s0 s1 s2 s3
  | 2 => mixRow 0x0d#8 0x09#8 0x0e#8 0x0b#8 s0 s1 s2 s3
  | _ => mixRow 0x0b#8 0x0d#8 0x09#8 0x0e#8 s0 s1 s2 s3

/-- InvMixColumns (R79), column by column. -/
def invMixColumns (x : Lane) : Lane :=
  tabulateLane fun i =>
    let c := i / 4
    invMixCell (i % 4) (byteAt x (cell 0 c)) (byteAt x (cell 1 c)) (byteAt x (cell 2 c)) (byteAt x (cell 3 c))

/-- The AES decryption round (R80): the state first, the round key second. -/
def aesdec (state key : Lane) : Lane := invMixColumns (invSubBytes (invShiftRows state)) ^^^ key

/-! ### AES-merge (R81, R82) -/

/-- A W-wide round on element `j` of two HashResult<W> values: one round per 128-bit lane inside the element (R81). -/
def wideRound (w : ProcWidth) (a b : Val) (j : Nat) : List Lane :=
  (List.range (w.bits / 128)).map fun l =>
    aesdec (lane a (j * (w.bits / 128) + l)) (lane b (j * (w.bits / 128) + l))

/-- Merge_W(a, b) (R82): one W-wide round per element, 512/W of them. -/
def mergeW (w : ProcWidth) (a b : Val) : Val :=
  ofDigits 512 ((List.range (512 / w.bits)).flatMap (wideRound w a b))

/-- Merge(a, b): lane by lane (R83), the form the later rules write without W (R84). -/
def merge (a b : Val) : Val := ofDigits 512 ((List.range 4).map fun L => aesdec (lane a L) (lane b L))

/-! ### Rotation (R85, R86) -/

/-- Rot(b): lane 0 ← lane 1 ← lane 2 ← lane 3 ← old lane 0. -/
def rot (b : Val) : Val := ofDigits 512 [lane b 1, lane b 2, lane b 3, lane b 0]

end Sys2Proof.Machine
end

