-- ==== Sys2Proof/Machine/Hash.lean ====
section
/-! DEFINITION. The HASH command (42_hash_engine.md): the function R89 states, the acceptance of the command R90, R91, R94,
and the engine's micro-steps R95 to R102. -/

namespace Sys2Proof.Machine

/-! ### Pieces both the function and the engine use -/

/-- InitVector(seed, len) (R93): the seed at even elements, seed + len + 1 modulo 2^64 at odd ones. -/
def initVector (seed len : Word) : Val :=
  ofDigits 512 ((List.range 8).map fun e => if e % 2 = 0 then seed else seed + len + 1#64)

/-- Sub-block `s` of a 256-byte block (R92). -/
def subBlock (d : List Byte) (s : Nat) : Val := ofDigits 512 ((d.drop (64 * s)).take 64)

/-- Scratch(IV, T) (R96): IV's bytes over all 256, the tail overlaid from offset 0. -/
def scratch (iv : Val) (tail : List Byte) : List Byte :=
  tail ++ ((List.range 256).map fun j => byteAt iv (j % 64)).drop tail.length

/-- The four merges of one 256-byte block (R95, R97), with the merge given. -/
def mergeBlock (m : Val → Val → Val) (q : Quad Val) (d : List Byte) : Quad Val :=
  { x0 := m q.x0 (subBlock d 0), x1 := m q.x1 (subBlock d 1)
    x2 := m q.x2 (subBlock d 2), x3 := m q.x3 (subBlock d 3) }

/-- AESRotate(RET, S[s]) (41_aes_datapath.md R86), with the merge given: RET is merged with the stream as it is before
the rotation. -/
def aesRotate (m : Val → Val → Val) (s : Fin 4) (x : Val × Quad Val) : Val × Quad Val :=
  (m x.1 (x.2.get s), x.2.set s (rot (x.2.get s)))

/-! ### The function (R89) -/

/-- Steps 3 and 4: the streams after absorption. -/
def absorbAll (data : List Byte) (iv : Val) : Quad Val :=
  let nb := data.length / 256
  let q := (List.range nb).foldl (fun q k => mergeBlock merge q ((data.drop (256 * k)).take 256)) ⟨iv, iv, iv, iv⟩
  if data.length % 256 = 0 then q else mergeBlock merge q (scratch iv (data.drop (256 * nb)))

/-- Step 5: four passes over the streams 0, 1, 2, 3. -/
def rotateAll (iv : Val) (q : Quad Val) : Val :=
  ((List.range 4).foldl (fun x _ => [0, 1, 2, 3].foldl (fun y s => aesRotate merge s y) x) (iv, q)).1

/-- Step 6: five merges with IV. -/
def whitenAll (iv ret : Val) : Val := (List.range 5).foldl (fun x _ => merge x iv) ret

/-- MeowHash(data, seed) (R89). -/
def meowHash (data : List Byte) (seed : Word) : Val :=
  let iv := initVector seed (BitVec.ofNat 64 data.length)
  whitenAll iv (rotateAll iv (absorbAll data iv))

/-! ### Acceptance (R90, R91, R94) -/

/-- The ALIGN check (R90): it applies when LEN = 0 too. -/
def misaligned (aligned : Bool) (w : ProcWidth) (src : Word) : Bool :=
  aligned && decide (src.toNat % (w.bits / 8) ≠ 0)

/-- The wrap check (R90), on the mathematical sum. -/
def rangeWraps (src len : Word) : Bool := decide (len ≠ 0#64 ∧ src.toNat + len.toNat > 2 ^ 64)

/-- PHASE after acceptance (R94). -/
def firstPhase (o : Op) : Phase :=
  if o.nb > 0 then .absorb else if o.tailLen ≠ 0 then .tail else .rotate

/-- The engine right after acceptance (R94). `unordered` are the addresses of stores the host has not ordered before the
CMD write: their bytes are any value (20_memory.md R44 item 1, S12; log 6). -/
def startEngine (o : Op) (unordered : List Nat) : Engine :=
  let iv := initVector o.seed o.len
  { phase := firstPhase o, op := o, iv := iv, streams := ⟨iv, iv, iv, iv⟩, ret := iv
    blk := 0, rcnt := 0, wcnt := 0, raced := unordered.filter o.inBuffer }

/-- HASH (R88): the acceptance step. ILLEGAL comes first (60_exceptions.md R122): W not in P_W_SUPPORTED, the part of
Decode that depends on the instance (R54; log 8), and an output width `tag`, which no CMD write decodes to (R55). -/
def execHash (d : Fin 4) (w : ProcWidth) (r : ViewSel) (aligned : Bool) (s : State) :
    Host.Outcome State Fault Refusal :=
  match r with
  | .tag => .next (s.accept.raise .illegal)
  | .of a =>
    if !s.platform.supports w then .next (s.accept.raise .illegal)
    else if misaligned aligned w s.src then .next (s.accept.raise .align)
    else if rangeWraps s.src s.len then .next (s.accept.raise .bus)
    else .next (s.accept.setEng
      (startEngine { src := s.src, len := s.len, seed := s.seed, ca := d, R := a, W := w } s.unordered))

/-! ### Micro-steps (R95 to R102) -/

/-- PHASE after a full block, the next one being `blk` (R95). -/
def phaseAfterAbsorb (o : Op) (blk : Nat) : Phase :=
  if blk = o.nb then (if o.tailLen ≠ 0 then .tail else .rotate) else .absorb

/-- ABSORB (R95). -/
def absorbStep (s : State) : State :=
  match memRead s (s.eng.op.src.toNat + 256 * s.eng.blk) 256 with
  | none => s.abort
  | some d =>
    (s.addDraws 256).setEng { s.eng with
      streams := mergeBlock (mergeW s.eng.op.W) s.eng.streams d
      blk := s.eng.blk + 1
      phase := phaseAfterAbsorb s.eng.op (s.eng.blk + 1) }

/-- TAIL (R97). -/
def tailStep (s : State) : State :=
  match memRead s (s.eng.op.src.toNat + 256 * s.eng.op.nb) s.eng.op.tailLen with
  | none => s.abort
  | some d =>
    (s.addDraws s.eng.op.tailLen).setEng { s.eng with
      streams := mergeBlock (mergeW s.eng.op.W) s.eng.streams (scratch s.eng.iv d)
      phase := .rotate }

/-- The stream a ROTATE step takes: RCNT mod 4 (R98). -/
def rotateStream (rcnt : Nat) : Fin 4 := ⟨rcnt % 4, Nat.mod_lt _ (by decide)⟩

/-- ROTATE (R98). -/
def rotateStep (s : State) : State :=
  let x := aesRotate (mergeW s.eng.op.W) (rotateStream s.eng.rcnt) (s.eng.ret, s.eng.streams)
  s.setEng { s.eng with
    ret := x.1
    streams := x.2
    rcnt := s.eng.rcnt + 1
    phase := if s.eng.rcnt + 1 = 16 then .whiten else .rotate }

/-- WHITEN (R100). -/
def whitenStep (s : State) : State :=
  s.setEng { s.eng with
    ret := mergeW s.eng.op.W s.eng.ret s.eng.iv
    wcnt := s.eng.wcnt + 1
    phase := if s.eng.wcnt + 1 = 5 then .complete else .whiten }

/-- COMPLETE (R101): the only step of a HASH that writes a container. -/
def completeStep (s : State) : State :=
  ((s.setCont s.eng.op.ca { B := s.eng.ret, T := s.eng.op.R }).setErr .ok).endRun

/-- The engine's next micro-step. An idle engine has none (R29). -/
def engineStep (s : State) : State :=
  match s.eng.phase with
  | .idle => s
  | .absorb => absorbStep s
  | .tail => tailStep s
  | .rotate => rotateStep s
  | .whiten => whitenStep s
  | .complete => completeStep s

end Sys2Proof.Machine
end

