-- ==== Sys2Proof/Machine/Dispatch.lean ====
section
/-! DEFINITION. What an accepted, decoded command does (43_host_interface.md R107, "execute cmd"). -/

namespace Sys2Proof.Machine

def exec (i : Instr) (s : State) : Host.Outcome State Fault Refusal :=
  match i with
  | .nop => Sys2Proof.Machine.execNop s
  | .hash d w r aligned => Sys2Proof.Machine.execHash d w r aligned s
  | .czero d a => Sys2Proof.Machine.execCzero d a s
  | .ccopy d src a => Sys2Proof.Machine.execCcopy d src a s
  | .cget src a idx => Sys2Proof.Machine.execCget src a idx s
  | .cput d a idx => Sys2Proof.Machine.execCput d a idx s
  | .ceq x y => Sys2Proof.Machine.execCeq x y s

end Sys2Proof.Machine
end

