-- ==== Sys2Proof/Machine/Window.lean ====
section
/-! DEFINITION. The host interface (43_host_interface.md): admission of an access R106, writes R107 to R110, reads R111, and
the turns of the agents outside the engine (20_memory.md R44, 70_reset_and_hazards.md R129). -/

namespace Sys2Proof.Machine

/-- The slots of the register window (10_state.md R13). -/
inductive Reg where
  | cmd | status | src | len | seed | cap | reserved30 | reserved38
  | data (k : Fin 8)
  deriving DecidableEq, Repr

/-- A slot's offset (R13). -/
def Reg.offset : Reg → Nat
  | .cmd => 0x00 | .status => 0x08 | .src => 0x10 | .len => 0x18 | .seed => 0x20 | .cap => 0x28
  | .reserved30 => 0x30 | .reserved38 => 0x38
  | .data k => 0x40 + 8 * k.val

/-- The slot at an offset of the window, if it is one of the sixteen (R13). -/
def regAt (offset : Nat) : Option Reg :=
  match offset with
  | 0x00 => some .cmd
  | 0x08 => some .status
  | 0x10 => some .src
  | 0x18 => some .len
  | 0x20 => some .seed
  | 0x28 => some .cap
  | 0x30 => some .reserved30
  | 0x38 => some .reserved38
  | 0x40 => some (.data 0)
  | 0x48 => some (.data 1)
  | 0x50 => some (.data 2)
  | 0x58 => some (.data 3)
  | 0x60 => some (.data 4)
  | 0x68 => some (.data 5)
  | 0x70 => some (.data 6)
  | 0x78 => some (.data 7)
  | _ => none

/-! ### Reads (R111) -/

/-- The value a host read returns. No read has a side effect. -/
def readReg (r : Reg) (s : State) : Word :=
  match r with
  | .cmd => 0#64
  | .status => statusWord s
  | .src => s.src
  | .len => s.len
  | .seed => s.seed
  | .cap => capWord s.platform
  | .reserved30 => 0#64
  | .reserved38 => 0#64
  | .data k => dataWord s.data k.val

/-! ### Writes (R107 to R110) -/

/-- A CMD write (R107): dropped while BUSY = 1, else accepted, decoded and executed. -/
def writeCmd (v : Word) (s : State) : Host.Outcome State Fault Refusal :=
  if s.busy then .next (s.setWbusy true)
  else
    match decode v with
    | .command i => exec i s.accept
    | .illegal _ => .next (s.accept.raise .illegal)

/-- A host write of `v` to a slot. -/
def writeReg (r : Reg) (v : Word) (s : State) : Host.Outcome State Fault Refusal :=
  match r with
  | .cmd => writeCmd v s
  | .status => .next (s.setWbusy (wbusyAfterWrite v s.wbusy))
  | .src => .next (s.setSrc v)
  | .len => .next (s.setLen v)
  | .seed => .next (s.setSeed v)
  | .cap => .next s
  | .reserved30 => .next s
  | .reserved38 => .next s
  | .data k => .next (s.setData (setDataWord s.data k.val v))

/-! ### Admission (R106) -/

/-- Whether an access of `size` bytes at `addr` touches the 128-byte window at `base`. -/
def touchesWindow (base addr size : Nat) : Bool := decide (addr < base + 128 ∧ base < addr + size)

/-- The slot an access names, if it is admitted: a 64-bit access whose offset is a multiple of 8 in 0x00..0x78. -/
def admittedReg (base addr size : Nat) : Option Reg :=
  if size = 8 ∧ base ≤ addr then regAt (addr - base) else none

/-- A host access. Outside the window it is no access to the block. -/
def hostAccess (a : HostAccess) (s : State) : Host.Outcome State Fault Refusal :=
  match a with
  | .read addr size =>
    if touchesWindow s.platform.base addr size then
      match admittedReg s.platform.base addr size with
      | some r => .next (s.logRead (readReg r s))
      | none => .refused (.unadmittedAccess addr size)
    else .next s
  | .write addr size v =>
    if touchesWindow s.platform.base addr size then
      match admittedReg s.platform.base addr size with
      | some r => writeReg r v s
      | none => .refused (.unadmittedAccess addr size)
    else .next s

/-! ### The other agents -/

/-- The engine after another agent stores to address `a`: a byte of the buffer of a run in progress is any value from then
on (20_memory.md R44 item 2). -/
def Engine.noteStore (e : Engine) (a : Nat) : Engine :=
  if e.phase ≠ .idle ∧ e.op.inBuffer a = true then { e with raced := a :: e.raced } else e

/-- An agent other than the engine stores a byte. -/
def storeByte (a : Word) (b : Byte) (s : State) : State :=
  ((s.setMem (s.mem.write a.toNat b)).setUnordered (a.toNat :: s.unordered)).setEng (s.eng.noteStore a.toNat)

/-- P_HOST_ORDER: every earlier store is ordered before every later CMD write (R44 item 1). -/
def orderStores (s : State) : State := s.setUnordered []

/-- The reset input (70_reset_and_hazards.md R129 to R131): the whole block is in its reset state. Platform memory, the
host's stores and the turns still to come are not the block's and stay. -/
def resetBlock (s : State) : State :=
  { State.resetWith s.platform with
    mem := s.mem, unordered := s.unordered, agenda := s.agenda, readLog := s.readLog, draws := s.draws }

end Sys2Proof.Machine
end

