-- ==== Sys2Proof/Machine/Step.lean ====
section
/-! DEFINITION. One step: the next turn of the agenda, or, when none is left, the engine's next micro-step
(43_host_interface.md R112, 70_reset_and_hazards.md R139; log 1). -/

namespace Sys2Proof.Machine

/-- One atomic step of one agent. A host's `wait` lets the engine step until BUSY = 0 and then is over. -/
def step (s : State) : Host.Outcome State Fault Refusal :=
  match s.agenda with
  | [] => .next (engineStep s)
  | .engine :: rest => .next (engineStep (s.setAgenda rest))
  | .wait :: rest => if s.busy then .next (engineStep s) else .next (s.setAgenda rest)
  | .host a :: rest => hostAccess a (s.setAgenda rest)
  | .store a b :: rest => .next (storeByte a b (s.setAgenda rest))
  | .order :: rest => .next (orderStores (s.setAgenda rest))
  | .reset :: rest => .next (resetBlock (s.setAgenda rest))

/-- The state whose very next step is the host's CMD write of a command word numbered as the opcode table numbers it
(log 10). -/
def State.withFetchWord (s : State) (nbits w : Nat) : State :=
  s.setAgenda (.host (.write s.platform.base 8 (BitVec.ofNat 64 (w % 2 ^ nbits))) :: s.agenda)

end Sys2Proof.Machine
end

