-- ==== Sys2Proof/Machine/Assembler.lean ====
section
/-! DEFINITION. The notations of 30_encoding.md: assembler syntax R56, host programs R57, pseudo-instructions R58. They add
nothing to the machine: a command is what `Syntax.lean` says, a host program is a list of turns. -/

namespace Sys2Proof.Machine

/-! ### Assembler syntax (R56) -/

/-- A width as the syntax writes it. -/
def asmWidth (letter : String) (n : Nat) : String := letter ++ toString n

/-- A container. -/
def asmContainer (c : Fin 4) : String := "c" ++ toString c.val

/-- A view-width operand, `t32` to `t512` or `tag`; with letter `r`, an output width. -/
def asmView (letter : String) : ViewSel → String
  | .of a => asmWidth letter a.bits
  | .tag => "tag"

/-- The text of a command. -/
def asm : Instr → String
  | .nop => "NOP"
  | .hash d w r aligned =>
    "HASH " ++ asmContainer d ++ ", " ++ asmWidth "w" w.bits ++ ", " ++ asmView "r" r
      ++ (if aligned then ", aligned" else "")
  | .czero d a => "CZERO " ++ asmContainer d ++ ", " ++ asmView "t" a
  | .ccopy d src a => "CCOPY " ++ asmContainer d ++ ", " ++ asmContainer src ++ ", " ++ asmView "t" a
  | .cget src a idx => "CGET " ++ asmContainer src ++ ", " ++ asmView "t" a ++ ", " ++ toString idx
  | .cput d a idx => "CPUT " ++ asmContainer d ++ ", " ++ asmView "t" a ++ ", " ++ toString idx
  | .ceq x y => "CEQ " ++ asmContainer x ++ ", " ++ asmContainer y

/-! ### Pseudo-instructions (R58) -/

/-- The pseudo-instructions. That the `tA` of WIDEN, NARROW and RETAG is a width and not `tag` is the model's choice: R58
does not say (log 13, DESIGN CHOICE). The copy that keeps the source's tag is CMOV. -/
inductive Pseudo where
  | hashDefault (d : Fin 4) (w : ProcWidth)
  | widen (d src : Fin 4) (a : ViewWidth)
  | narrow (d src : Fin 4) (a : ViewWidth)
  | retag (d : Fin 4) (a : ViewWidth)
  | cmov (d src : Fin 4)
  | cclr (d : Fin 4)
  | cidx (src : Fin 4) (idx : Nat)
  | cset (d : Fin 4) (idx : Nat)
  | cread (src : Fin 4)
  | cload (d : Fin 4)
  deriving DecidableEq, Repr

/-- The output width that "defaults to W". -/
def ProcWidth.asView : ProcWidth → ViewWidth
  | .w128 => .w128 | .w256 => .w256 | .w512 => .w512

/-- The expansion of a pseudo-instruction. -/
def Pseudo.expand : Pseudo → Instr
  | .hashDefault d w => .hash d w (.of (ProcWidth.asView w)) false
  | .widen d src a => .ccopy d src (.of a)
  | .narrow d src a => .ccopy d src (.of a)
  | .retag d a => .ccopy d d (.of a)
  | .cmov d src => .ccopy d src .tag
  | .cclr d => .czero d .tag
  | .cidx src idx => .cget src .tag idx
  | .cset d idx => .cput d .tag idx
  | .cread src => .cget src (.of .w512) 0
  | .cload d => .cput d (.of .w512) 0

/-! ### Host programs (R57) -/

/-- One line of a host program. -/
inductive ProgLine where
  | wr (r : Reg) (v : Word)
  | rd (r : Reg)
  | cmd (i : Instr)
  | wait
  deriving DecidableEq, Repr

/-- The turn a line stands for, in an instance whose window is at `base`. -/
def ProgLine.turn (base : Nat) : ProgLine → Turn
  | .wr r v => .host (.write (base + r.offset) 8 v)
  | .rd r => .host (.read (base + r.offset) 8)
  | .cmd i => .host (.write (base + Reg.cmd.offset) 8 (cmdValue i))
  | .wait => .wait

/-- `mem A: b0 b1 …`: the start contents of memory from address `a` on (R57). -/
def Memory.place (m : Memory) (a : Nat) : List Byte → Memory
  | [] => m
  | b :: bs => Memory.place (Memory.write m a b) (a + 1) bs

/-- The turns of a program's lines, with `gaps` engine turns before each: entry k before line k, none where the list has
ended. R112 and S15 (93_implementation_defined.md) allow every interleaving, so a claim about a program is a claim for
every `gaps`. -/
def programTurns (base : Nat) : List ProgLine → List Nat → List Turn
  | [], gaps => List.replicate (gaps.headD 0) .engine
  | l :: ls, gaps => List.replicate (gaps.headD 0) .engine ++ l.turn base :: programTurns base ls gaps.tail

/-- A program's start: reset state of the instance, memory as given, the program's lines as the turns to come. WHICH
interleaving it is, is the caller's choice of `gaps` (log 12, DESIGN CHOICE): with `gaps = []` the engine steps only in a
`wait` and after the last line, so that a command written right after a HASH is always dropped; with engine turns
enough before it, it is accepted. -/
def programStart (p : Platform) (m : Memory) (lines : List ProgLine) (gaps : List Nat) : State :=
  ((State.resetWith p).setMem m).setAgenda (programTurns p.base lines gaps)

end Sys2Proof.Machine
end

