-- ==== Sys2Proof/Safety.lean ====
section
/-! DEFINITION. What counts as a safe run, in the terms the statements use: the invariant of every step, agendas whose
accesses the block admits, and the final state of a program (43_host_interface.md R114). -/

namespace Sys2Proof.Machine

/-- The ranges of the counters, busy or idle (10_state.md R29). -/
def Engine.inRange (e : Engine) : Prop := e.blk ≤ e.op.nb ∧ e.rcnt ≤ 16 ∧ e.wcnt ≤ 5

/-- What holds of a run in progress (10_state.md R29, 42_hash_engine.md R90 to R100): the buffer does not wrap, W is
implemented, IV is the init vector of the operands, the counters are where the phase says, and only buffer bytes are
raced. -/
def Engine.runInv (p : Platform) (e : Engine) : Prop :=
  e.op.src.toNat + e.op.len.toNat ≤ 2 ^ 64 ∧
  p.supports e.op.W = true ∧
  e.iv = initVector e.op.seed e.op.len ∧
  (∀ a ∈ e.raced, e.op.inBuffer a = true) ∧
  match e.phase with
  | .idle => False
  | .absorb => e.blk < e.op.nb ∧ e.rcnt = 0 ∧ e.wcnt = 0 ∧ e.ret = e.iv
  | .tail => e.blk = e.op.nb ∧ e.op.tailLen ≠ 0 ∧ e.rcnt = 0 ∧ e.wcnt = 0 ∧ e.ret = e.iv
  | .rotate => e.blk = e.op.nb ∧ e.rcnt < 16 ∧ e.wcnt = 0
  | .whiten => e.blk = e.op.nb ∧ e.rcnt = 16 ∧ e.wcnt < 5
  | .complete => e.blk = e.op.nb ∧ e.rcnt = 16 ∧ e.wcnt = 5

/-- The invariant every step keeps: memory is in canonical form, the counters are in their ranges, ERR reads 0 while
BUSY = 1 (10_state.md R15), and a run in progress is as `Engine.runInv` says. -/
def State.inv (s : State) : Prop :=
  s.mem.wf = true ∧ s.eng.inRange ∧ (s.eng.phase ≠ .idle → s.err = .ok ∧ s.eng.runInv s.platform)

/-- The block never refuses this turn: a host access is admitted or does not touch the window (R106). -/
def Turn.admissible (p : Platform) : Turn → Bool
  | .host (.read addr size) => !touchesWindow p.base addr size || (admittedReg p.base addr size).isSome
  | .host (.write addr size _) => !touchesWindow p.base addr size || (admittedReg p.base addr size).isSome
  | .engine => true
  | .wait => true
  | .store _ _ => true
  | .order => true
  | .reset => true

/-- A safe agenda. -/
def State.admissible (s : State) : Bool := s.agenda.all (Turn.admissible s.platform)

/-- The end of a program (R114): the host has taken its last access and BUSY = 0. That it also waits for the turns other
agents have left, so that a reset after the last access comes before the end, is the model's choice: R114 speaks of the
host's accesses only (log 14, DESIGN CHOICE). -/
def State.final (s : State) : Bool := s.agenda.isEmpty && !s.busy

/-- What a claim about a program is stated over (R114): the container file, DATA, STATUS, SRC, LEN and SEED. -/
structure FinalState where
  cont : Quad Container
  data : Val
  status : Word
  src : Word
  len : Word
  seed : Word
  deriving DecidableEq, Repr

/-- The final state of R114. -/
def State.finalState (s : State) : FinalState :=
  { cont := s.cont, data := s.data, status := statusWord s, src := s.src, len := s.len, seed := s.seed }

/-- The bytes `[SRC, SRC + LEN)` of memory: the input of the next HASH (20_memory.md R39). -/
def State.inputBytes (s : State) : List Byte :=
  (List.range s.len.toNat).map fun j => s.mem.read (s.src.toNat + j)

end Sys2Proof.Machine
end

