-- ==== Sys2Proof/Certificates/Slice0/Obligations.lean ====
section
/-! DEFINITION. The statements for the provers. Each holds of every state it names, reached or not, and so for every
instance (`State.platform`), every memory and every value of the model's own fields. -/

open Sys2Proof Sys2Proof.Machine

/-! ### Words the statements use, written from the spec apart from the model's own helpers -/

namespace Sys2Proof.Spec

/-- Bits `lo + width - 1` down to `lo` of a CMD write (30_encoding.md R50). -/
def bits (v : Word) (lo width : Nat) : Nat := v.toNat / 2 ^ lo % 2 ^ width

/-- The causes of ILLEGAL (30_encoding.md R54, R55, 60_exceptions.md R117). -/
def illegalWrite (p : Platform) (v : Word) : Prop :=
  let op := bits v 0 4; let cb := bits v 6 2; let wa := bits v 8 3; let wp := bits v 11 2
  let aln := bits v 13 1; let idx := bits v 14 4
  bits v 32 32 ≠ 0 ∨ bits v 18 14 ≠ 0 ∨ 7 ≤ op
  ∨ (op = 0 ∧ bits v 4 28 ≠ 0)
  ∨ (op = 1 ∧ (cb ≠ 0 ∨ idx ≠ 0 ∨ 4 < wa ∨ wp = 3 ∨ (wp = 1 ∧ p.w256 = false) ∨ (wp = 2 ∧ p.w512 = false)))
  ∨ (op = 2 ∧ (cb ≠ 0 ∨ wp ≠ 0 ∨ aln ≠ 0 ∨ idx ≠ 0 ∨ wa = 5 ∨ wa = 6))
  ∨ (op = 3 ∧ (wp ≠ 0 ∨ aln ≠ 0 ∨ idx ≠ 0 ∨ wa = 5 ∨ wa = 6))
  ∨ ((op = 4 ∨ op = 5) ∧ (cb ≠ 0 ∨ wp ≠ 0 ∨ aln ≠ 0 ∨ wa = 5 ∨ wa = 6))
  ∨ (op = 6 ∧ (wa ≠ 0 ∨ wp ≠ 0 ∨ aln ≠ 0 ∨ idx ≠ 0))

/-- The container a container command writes (40_container.md); a HASH writes its container at completion only. -/
def dest : Instr → Option (Fin 4)
  | .nop => none
  | .hash _ _ _ _ => none
  | .czero d _ => some d
  | .ccopy d _ _ => some d
  | .cget _ _ _ => none
  | .cput d _ _ => some d
  | .ceq _ _ => none

/-- `le(elem(v, A, i))`: an element of the width-A view as an integer (00_scope.md R8). -/
def elemInt (v : Val) (a : ViewWidth) (i : Nat) : Nat := v.toNat / 2 ^ (a.bits * i) % 2 ^ a.bits

/-- The next turn is a host write of `v` to the slot at `offset`. -/
def hostWrites (s : State) (offset : Nat) (v : Word) (rest : List Turn) : Prop :=
  s.agenda = .host (.write (s.platform.base + offset) 8 v) :: rest

/-- The affine map of 41_aes_datapath.md R77, bit by bit. -/
def affineBit (b : Byte) (i : Nat) : Bool :=
  b.getLsbD i ^^ b.getLsbD ((i + 4) % 8) ^^ b.getLsbD ((i + 5) % 8) ^^ b.getLsbD ((i + 6) % 8)
    ^^ b.getLsbD ((i + 7) % 8) ^^ (0x63#8).getLsbD i

/-- Entry (r, q) of the matrix of R79. -/
def mixCoeff (r q : Nat) : Byte := [0x0e#8, 0x0b#8, 0x0d#8, 0x09#8].getD ((q + 4 - r) % 4) 0#8

/-- InvSbox of cell (q, c) after InvShiftRows (R78): the byte column c of the round takes from row q. -/
def subbedCell (x : Lane) (q c : Nat) : Byte := invSbox (byteAt x (q + 4 * ((c + 4 - q) % 4)))

/-- The engine is about to read `n` bytes at `addr`, and the platform admits the request (20_memory.md R38). -/
def readable (s : State) (addr n : Nat) : Prop := addr + n ≤ 2 ^ 64 ∧ s.platform.admits addr n = true

/-- `MemRead` of these bytes is BusError (R38). -/
def refused (s : State) (addr n : Nat) : Prop := n ≠ 0 ∧ (2 ^ 64 < addr + n ∨ s.platform.admits addr n = false)

/-- The number STATUS.ERR shows for each error (60_exceptions.md R116). -/
def errNumber : ErrCode → Nat
  | .ok => 0
  | .illegal => 1
  | .range => 2
  | .align => 3
  | .bus => 4

/-- This turn ends no run, whatever the state: it is no `wait` and no reset. -/
def endsNoRun (x : Turn) : Prop := x ≠ .wait ∧ x ≠ .reset

/-- The platform admits every request of a HASH of `s`'s operands (R39). -/
def admitsInput (s : State) : Prop :=
  (∀ k < s.len.toNat / 256, s.platform.admits (s.src.toNat + 256 * k) 256 = true) ∧
  (s.len.toNat % 256 ≠ 0 →
    s.platform.admits (s.src.toNat + 256 * (s.len.toNat / 256)) (s.len.toNat % 256) = true)

/-- The micro-steps of a HASH of `len` bytes (42_hash_engine.md R105). -/
def hashSteps (len : Nat) : Nat := len / 256 + (if len % 256 ≠ 0 then 1 else 0) + 16 + 5 + 1

end Sys2Proof.Spec

open Sys2Proof.Spec

/-! ### Encoding (30_encoding.md) -/

/-- R50 to R54: no bit of an encoding is dropped. -/
def Obligations.DecodeOfEncodeIsTheCommand : Prop :=
  ∀ i : Instr, i.wellFormed = true → decode (cmdValue i) = .command i

/-- R54: each CMD write has one meaning, so a word that decodes is the encoding of what it decodes to. -/
def Obligations.DecodedWriteIsTheEncodingOfItsCommand : Prop :=
  ∀ (v : Word) (i : Instr), decode v = .command i → i.wellFormed = true ∧ cmdValue i = v

/-- R53: a word that decodes matches its command's row of the opcode table, and no other row. -/
def Obligations.DecodedWordMatchesExactlyItsTableRow : Prop :=
  ∀ (v : Word) (i : Instr), decode v = .command i →
    i.row.matchesWord (v.setWidth 32) = true ∧
    ∀ j : Instr, j.row.matchesWord (v.setWidth 32) = true → j.row = i.row

/-- 95_test_vectors.md, section 6: words written out from the encoding of each row. -/
def Obligations.SampleWordsOfEveryRowDecode : Prop :=
  decode 0x000000000#64 = .command .nop ∧
  decode 0x000002101#64 = .command (.hash 0 .w128 (.of .w64) true) ∧
  decode 0x000001111#64 = .command (.hash 1 .w512 (.of .w64) false) ∧
  decode 0x000000712#64 = .command (.czero 1 .tag) ∧
  decode 0x0000001B3#64 = .command (.ccopy 3 2 (.of .w64)) ∧
  decode 0x00003C004#64 = .command (.cget 0 (.of .w32) 15) ∧
  decode 0x00001C115#64 = .command (.cput 1 (.of .w64) 7) ∧
  decode 0x000000046#64 = .command (.ceq 0 1)

/-- R117 (with R54, R55): an accepted CMD write is ILLEGAL exactly for the listed causes, and then sets ERR alone;
every other one executes a command this instance implements. -/
def Obligations.CmdWriteIsIllegalExactlyForItsCauses : Prop :=
  ∀ (s : State) (v : Word), s.eng.phase = .idle →
    (illegalWrite s.platform v → writeCmd v s = .next { s with err := .illegal }) ∧
    (¬ illegalWrite s.platform v →
      ∃ i, decode v = .command i ∧ writeCmd v s = exec i { s with err := .ok } ∧
        ∀ d w r aln, i = .hash d w r aln → s.platform.supports w = true)

/-! ### Container commands (40_container.md) -/

/-- R64: NOP sets ERR to 0 and changes nothing else. -/
def Obligations.NopClearsErrAndNothingElse : Prop :=
  ∀ s : State, exec .nop s = .next { s with err := .ok }

/-- R65: CZERO. -/
def Obligations.CzeroGivesZeroBytesAndTheResolvedTag : Prop :=
  ∀ (s : State) (d : Fin 4) (a : ViewSel),
    ∃ t, exec (.czero d a) s = .next t ∧ t = { s with err := .ok, cont := t.cont } ∧
      (∀ j < 64, byteAt (t.cont.get d).B j = 0x00#8) ∧
      (t.cont.get d).T = (match a with | .of w => w | .tag => (s.cont.get d).T) ∧
      ∀ c, c ≠ d → t.cont.get c = s.cont.get c

/-- R66: CCOPY; `tag` takes the SOURCE's tag, and source and destination may be the same container. -/
def Obligations.CcopyGivesTheSourceBytesAndTheResolvedTag : Prop :=
  ∀ (s : State) (d src : Fin 4) (a : ViewSel),
    ∃ t, exec (.ccopy d src a) s = .next t ∧ t = { s with err := .ok, cont := t.cont } ∧
      (t.cont.get d).B = (s.cont.get src).B ∧
      (t.cont.get d).T = (match a with | .of w => w | .tag => (s.cont.get src).T) ∧
      ∀ c, c ≠ d → t.cont.get c = s.cont.get c

/-- R69: CGET of an element that exists: its bytes, zero filled, and the integer R68 says. -/
def Obligations.CgetPutsTheElementZeroFilledIntoData : Prop :=
  ∀ (s : State) (src : Fin 4) (a : ViewSel) (idx : Nat),
    idx < 512 / (resolve a (s.cont.get src)).bits →
    ∃ t, exec (.cget src a idx) s = .next t ∧ t = { s with err := .ok, data := t.data } ∧
      (∀ j < (resolve a (s.cont.get src)).bytes,
        byteAt t.data j = byteAt (s.cont.get src).B ((resolve a (s.cont.get src)).bytes * idx + j)) ∧
      (∀ j, (resolve a (s.cont.get src)).bytes ≤ j → j < 64 → byteAt t.data j = 0x00#8) ∧
      t.data.toNat = elemInt (s.cont.get src).B (resolve a (s.cont.get src)) idx

/-- R71: CPUT of an element that exists: the element is the low bytes of DATA, every other byte and the tag stay. -/
def Obligations.CputWritesTheElementFromDataAndNoOtherByte : Prop :=
  ∀ (s : State) (d : Fin 4) (a : ViewSel) (idx : Nat),
    idx < 512 / (resolve a (s.cont.get d)).bits →
    ∃ t, exec (.cput d a idx) s = .next t ∧ t = { s with err := .ok, cont := t.cont } ∧
      (t.cont.get d).T = (s.cont.get d).T ∧
      (∀ j < (resolve a (s.cont.get d)).bytes,
        byteAt (t.cont.get d).B ((resolve a (s.cont.get d)).bytes * idx + j) = byteAt s.data j) ∧
      (∀ k < 64, (k < (resolve a (s.cont.get d)).bytes * idx ∨
          (resolve a (s.cont.get d)).bytes * idx + (resolve a (s.cont.get d)).bytes ≤ k) →
        byteAt (t.cont.get d).B k = byteAt (s.cont.get d).B k) ∧
      ∀ c, c ≠ d → t.cont.get c = s.cont.get c

/-- R118: RANGE, for both commands that index, whatever the width and wherever it comes from. -/
def Obligations.IndexOutOfRangeRaisesRangeOnly : Prop :=
  ∀ (s : State) (c : Fin 4) (a : ViewSel) (idx : Nat),
    512 / (resolve a (s.cont.get c)).bits ≤ idx →
    exec (.cget c a idx) s = .next { s with err := .range } ∧
    exec (.cput c a idx) s = .next { s with err := .range }

/-- R72: CEQ compares all 64 bytes and no tag. -/
def Obligations.CeqSetsEqExactlyWhenTheBytesAreEqual : Prop :=
  ∀ (s : State) (x y : Fin 4),
    ∃ t, exec (.ceq x y) s = .next t ∧ t = { s with err := .ok, eq := t.eq } ∧
      (t.eq = true ↔ ∀ j < 64, byteAt (s.cont.get x).B j = byteAt (s.cont.get y).B j) ∧
      (t.eq = true ↔ (s.cont.get x).B = (s.cont.get y).B)

/-- R71 and R69 together: a CGET after a CPUT of the same element gives the low bytes of the DATA that was put, and
every other element of that view reads as before. -/
def Obligations.CgetAfterCputReadsWhatWasPut : Prop :=
  ∀ (s : State) (c : Fin 4) (a : ViewSel) (idx : Nat),
    idx < 512 / (resolve a (s.cont.get c)).bits →
    ∃ t u, exec (.cput c a idx) s = .next t ∧ exec (.cget c a idx) t = .next u ∧
      u.data.toNat = s.data.toNat % 2 ^ (resolve a (s.cont.get c)).bits ∧
      ∀ k, k ≠ idx → k < 512 / (resolve a (s.cont.get c)).bits →
        elemInt (t.cont.get c).B (resolve a (s.cont.get c)) k =
          elemInt (s.cont.get c).B (resolve a (s.cont.get c)) k

/-- 20_memory.md R36: views of two widths are the same bytes. -/
def Obligations.NarrowViewsAliasTheWideView : Prop :=
  ∀ (s : State) (c : Fin 4) (i : Nat), i < 4 →
    ∃ t u w, exec (.cget c (.of .w64) (2 * i)) s = .next t ∧ exec (.cget c (.of .w64) (2 * i + 1)) s = .next u ∧
      exec (.cget c (.of .w128) i) s = .next w ∧
      t.data.toNat = w.data.toNat % 2 ^ 64 ∧ u.data.toNat = w.data.toNat / 2 ^ 64

/-! ### HASH acceptance (42_hash_engine.md) -/

/-- R90, R91, R93, R94: a HASH that passes the checks snapshots its operands, sets up the engine and changes nothing
else.
The list of raced bytes is the model's (log 6). -/
def Obligations.HashAcceptanceSnapshotsOperandsAndSetsUpTheEngine : Prop :=
  ∀ (s : State) (d : Fin 4) (w : ProcWidth) (a : ViewWidth) (aln : Bool),
    s.platform.supports w = true →
    (aln = true → s.src.toNat % (w.bits / 8) = 0) →
    (s.len = 0#64 ∨ s.src.toNat + s.len.toNat ≤ 2 ^ 64) →
    ∃ t r, exec (.hash d w (.of a) aln) s = .next t ∧ t = { s with err := .ok, eng := r } ∧
      r.op = { src := s.src, len := s.len, seed := s.seed, ca := d, R := a, W := w } ∧
      (∀ e < 8, r.iv.extractLsb' (64 * e) 64 = if e % 2 = 0 then s.seed else s.seed + s.len + 1#64) ∧
      (∀ k, r.streams.get k = r.iv) ∧ r.ret = r.iv ∧
      r.blk = 0 ∧ r.rcnt = 0 ∧ r.wcnt = 0 ∧
      r.phase = (if 0 < s.len.toNat / 256 then .absorb else if s.len.toNat % 256 ≠ 0 then .tail else .rotate) ∧
      ∀ x, x ∈ r.raced ↔ x ∈ s.unordered ∧ s.src.toNat ≤ x ∧ x < s.src.toNat + s.len.toNat

/-- R90, R119, R120 (a), R122: the first check that fails is the only one reported, and nothing but ERR changes.
An output width `tag`, which no CMD write decodes to, is ILLEGAL too.
(That exec makes the check of W first is the model's split of R54's Decode, log 8.) -/
def Obligations.HashRejectionsInPriorityOrder : Prop :=
  ∀ (s : State) (d : Fin 4) (w : ProcWidth) (a : ViewWidth) (aln : Bool),
    (s.platform.supports w = false → exec (.hash d w (.of a) aln) s = .next { s with err := .illegal }) ∧
    (s.platform.supports w = true → aln = true → s.src.toNat % (w.bits / 8) ≠ 0 →
      exec (.hash d w (.of a) aln) s = .next { s with err := .align }) ∧
    (s.platform.supports w = true → ¬ (aln = true ∧ s.src.toNat % (w.bits / 8) ≠ 0) →
      s.len ≠ 0#64 → 2 ^ 64 < s.src.toNat + s.len.toNat →
      exec (.hash d w (.of a) aln) s = .next { s with err := .bus }) ∧
    exec (.hash d w .tag aln) s = .next { s with err := .illegal }

/-! ### Frames and precision of every command -/

/-- 40_container.md R61, 60_exceptions.md R115: what the seven commands leave unchanged. No form stores to memory, so
every address reads as before. -/
def Obligations.CommandsChangeOnlyTheirDestinations : Prop :=
  ∀ (i : Instr) (s t : State), exec i s = .next t →
    (∀ x, t.mem.read x = s.mem.read x) ∧
    t.src = s.src ∧ t.len = s.len ∧ t.seed = s.seed ∧ t.wbusy = s.wbusy ∧
    t.mem = s.mem ∧ t.unordered = s.unordered ∧ t.platform = s.platform ∧ t.agenda = s.agenda ∧
    t.readLog = s.readLog ∧ t.draws = s.draws ∧
    (∀ c, dest i ≠ some c → t.cont.get c = s.cont.get c) ∧
    ((∀ x y, i ≠ .ceq x y) → t.eq = s.eq) ∧
    ((∀ c a k, i ≠ .cget c a k) → t.data = s.data) ∧
    ((∀ d w r aln, i ≠ .hash d w r aln) → t.eng = s.eng)

/-- 60_exceptions.md R115, R123: errors are precise. An accepted CMD write that ends with an error code changes ERR
and nothing else. -/
def Obligations.FailedCommandChangesErrOnly : Prop :=
  ∀ (v : Word) (s t : State), s.eng.phase = .idle → writeCmd v s = .next t → t.err ≠ .ok → t = { s with err := t.err }

/-! ### The AES datapath (41_aes_datapath.md) -/

/-- R77: the table is the inverse of `Sbox(x) = Affine(x^-1)`: every byte x has an inverse y (0 for 0), and InvSbox
takes Affine(y) back to x.
The spec marks R76, R77 as general knowledge (log 9). -/
def Obligations.InvSboxInvertsAffineOfInverse : Prop :=
  ∀ x : Byte, ∃ y b : Byte, ((x = 0x00#8 ∧ y = 0x00#8) ∨ gmul x y = 0x01#8) ∧
    (∀ i < 8, b.getLsbD i = affineBit y i) ∧ invSbox b = x

/-- R75, R78, R79, R80: every byte of the AES decryption round.
The spec marks these rules as general knowledge (log 9). -/
def Obligations.AesdecByteByByte : Prop :=
  ∀ (x k : Lane) (r c : Nat), r < 4 → c < 4 →
    byteAt (aesdec x k) (r + 4 * c) =
      gmul (mixCoeff r 0) (subbedCell x 0 c) ^^^ gmul (mixCoeff r 1) (subbedCell x 1 c)
        ^^^ gmul (mixCoeff r 2) (subbedCell x 2 c) ^^^ gmul (mixCoeff r 3) (subbedCell x 3 c)
        ^^^ byteAt k (r + 4 * c)

/-- R80: InvShiftRows and InvSubBytes commute.
The spec marks R80 as general knowledge (log 9). -/
def Obligations.InvShiftRowsCommutesWithInvSubBytes : Prop :=
  ∀ x : Lane, invSubBytes (invShiftRows x) = invShiftRows (invSubBytes x)

/-- R76, R79: a column of four equal bytes maps to itself.
The spec marks these rules as general knowledge (log 9). -/
def Obligations.UniformColumnIsFixedByInvMixColumns : Prop :=
  ∀ (v : Byte) (r : Nat), invMixCell r v v v v = v

/-- R83: lane independence of the W-wide merge, for every W.
The spec marks the rule as its own inference. -/
def Obligations.MergeActsLaneByLane : Prop :=
  ∀ (w : ProcWidth) (a b : Val) (L : Nat), L < 4 →
    lane (mergeW w a b) L = aesdec (lane a L) (lane b L)

/-- R84: the merge does not depend on W.
The spec marks the rule as its own inference. -/
def Obligations.MergeDoesNotDependOnTheWidth : Prop :=
  ∀ (w w' : ProcWidth) (a b : Val), mergeW w a b = mergeW w' a b ∧ mergeW w a b = merge a b

/-- R85: the rotation moves whole lanes by one towards lane 0, and no byte within its lane. -/
def Obligations.RotMovesEveryByteByOneLane : Prop :=
  ∀ b : Val, (∀ k < 64, byteAt (rot b) k = byteAt b ((k + 16) % 64)) ∧
    lane (rot b) 0 = lane b 1 ∧ lane (rot b) 1 = lane b 2 ∧ lane (rot b) 2 = lane b 3 ∧ lane (rot b) 3 = lane b 0

/-- R87: lane L of the k-fold rotation is lane (L + k) mod 4, and four rotations are the identity.
The spec marks the rule as its own inference. -/
def Obligations.RepeatedRotationTakesLaneLPlusK : Prop :=
  ∀ (b : Val) (k : Nat), (∀ L < 4, lane (rot^[k] b) L = lane b ((L + k) % 4)) ∧ rot^[4] b = b

/-! ### The init vector and the scratch buffer -/

/-- R93: every element of IV, and its four equal lanes.
The spec marks the sentence about the lanes as its own inference. -/
def Obligations.InitVectorElementsAlternateSeedAndSum : Prop :=
  ∀ seed len : Word,
    (∀ e < 8, (initVector seed len).extractLsb' (64 * e) 64 = if e % 2 = 0 then seed else seed + len + 1#64) ∧
    ∀ L < 4, lane (initVector seed len) L = (seed + len + 1#64) ++ seed

/-- R96: the scratch buffer: IV's bytes, with the tail overlaid from offset 0. -/
def Obligations.ScratchIsTheInitVectorOverlaidByTheTail : Prop :=
  ∀ (iv : Val) (tail : List Byte), 1 ≤ tail.length → tail.length ≤ 255 →
    (scratch iv tail).length = 256 ∧
    ∀ j < 256, (scratch iv tail).getD j 0x00#8 =
      if j < tail.length then tail.getD j 0x00#8 else byteAt iv (j % 64)

/-! ### Micro-steps (42_hash_engine.md R95 to R102) -/

/-- R95: an ABSORB step merges byte `64 k + j` of the block into stream k. The byte is the memory oracle's answer, that is
memory's byte unless R44 makes it any value (then the free value, whatever it is).
The draw counter is the model's (log 7). -/
def Obligations.AbsorbStepMergesTheBlockIntoTheStreams : Prop :=
  ∀ (s : State) (r : Engine), s.eng = r → r.phase = .absorb →
    readable s (r.op.src.toNat + 256 * r.blk) 256 →
    engineStep s = { s with
      draws := s.draws + 256
      eng := { r with
        streams :=
          let x := fun k => tabulate fun j => oracleByte s (r.op.src.toNat + 256 * r.blk) (64 * k + j)
          ⟨mergeW r.op.W r.streams.x0 (x 0), mergeW r.op.W r.streams.x1 (x 1),
           mergeW r.op.W r.streams.x2 (x 2), mergeW r.op.W r.streams.x3 (x 3)⟩
        blk := r.blk + 1
        phase :=
          if r.blk + 1 = r.op.len.toNat / 256 then (if r.op.len.toNat % 256 ≠ 0 then .tail else .rotate)
          else .absorb } }

/-- R97: a TAIL step merges the scratch buffer: input bytes below r, IV's bytes from r on.
The oracle's answer and the draw counter are the model's (logs 6, 7). -/
def Obligations.TailStepMergesThePaddedTailIntoTheStreams : Prop :=
  ∀ (s : State) (r : Engine), s.eng = r → r.phase = .tail → r.op.len.toNat % 256 ≠ 0 →
    readable s (r.op.src.toNat + 256 * (r.op.len.toNat / 256)) (r.op.len.toNat % 256) →
    engineStep s = { s with
      draws := s.draws + r.op.len.toNat % 256
      eng := { r with
        streams :=
          let x := fun k => tabulate fun j =>
            if 64 * k + j < r.op.len.toNat % 256 then
              oracleByte s (r.op.src.toNat + 256 * (r.op.len.toNat / 256)) (64 * k + j)
            else byteAt r.iv j
          ⟨mergeW r.op.W r.streams.x0 (x 0), mergeW r.op.W r.streams.x1 (x 1),
           mergeW r.op.W r.streams.x2 (x 2), mergeW r.op.W r.streams.x3 (x 3)⟩
        phase := .rotate } }

/-- R98: one ROTATE step. -/
def Obligations.RotateStepMergesTheStreamThenRotatesIt : Prop :=
  ∀ (s : State) (r : Engine), s.eng = r → r.phase = .rotate →
    ∃ k : Fin 4, k.val = r.rcnt % 4 ∧
      engineStep s = { s with eng := { r with
        ret := mergeW r.op.W r.ret (r.streams.get k)
        streams := r.streams.set k (rot (r.streams.get k))
        rcnt := r.rcnt + 1
        phase := if r.rcnt + 1 = 16 then .whiten else .rotate } }

/-- R99: the whole schedule. After the first n ROTATE steps of an undisturbed engine, RET has been merged, in order, with
stream `t mod 4` rotated by its pass `t div 4`.
The empty list of turns is the model's (log 1). -/
def Obligations.RotateScheduleTakesStreamsInOrderAndPassRotation : Prop :=
  ∀ (s : State) (r : Engine), s.agenda = [] → s.eng = r → r.phase = .rotate → r.rcnt = 0 →
    ∀ n ≤ 16, ∃ t r', Sys2Proof.core.run n s = .next t ∧ t = { s with eng := r' } ∧ r'.rcnt = n ∧
      r'.ret = (List.range n).foldl
        (fun x k => merge x (rot^[k / 4] (r.streams.get ⟨k % 4, Nat.mod_lt _ (by decide)⟩))) r.ret ∧
      r' = { r with ret := r'.ret, streams := r'.streams, rcnt := n, phase := if n = 16 then .whiten else .rotate }

/-- R100: one WHITEN step. -/
def Obligations.WhitenStepMergesIvIntoRet : Prop :=
  ∀ (s : State) (r : Engine), s.eng = r → r.phase = .whiten →
    engineStep s = { s with eng := { r with
      ret := mergeW r.op.W r.ret r.iv
      wcnt := r.wcnt + 1
      phase := if r.wcnt + 1 = 5 then .complete else .whiten } }

/-- R101: COMPLETE writes the destination container, all 64 bytes and the tag, ends the run and changes nothing else (the
internal registers are left unspecified, R28); no other step of the engine writes a container. -/
def Obligations.CompleteStepWritesTheDestinationAndEndsTheRun : Prop :=
  ∀ (s : State) (r : Engine), s.eng = r →
    (r.phase = .complete → ∃ t, engineStep s = t ∧
      t = { s with err := .ok, eng := t.eng, cont := t.cont, draws := t.draws } ∧ t.eng.phase = .idle ∧
      t.cont.get r.op.ca = { B := r.ret, T := r.op.R } ∧
      ∀ c, c ≠ r.op.ca → t.cont.get c = s.cont.get c) ∧
    (r.phase ≠ .complete → (engineStep s).cont = s.cont)

/-- R102: a refused read ends the run in the same step, with ERR = BUS and no container written; the internal registers
are left unspecified. -/
def Obligations.BusErrorAbortsTheRun : Prop :=
  ∀ (s : State) (r : Engine), s.eng = r →
    ((r.phase = .absorb ∧ refused s (r.op.src.toNat + 256 * r.blk) 256) ∨
     (r.phase = .tail ∧
       refused s (r.op.src.toNat + 256 * (r.op.len.toNat / 256)) (r.op.len.toNat % 256))) →
    ∃ t, engineStep s = t ∧ t = { s with err := .bus, eng := t.eng, draws := t.draws } ∧ t.eng.phase = .idle

/-- R91, R109: the engine reads neither SRC, LEN, SEED nor DATA, and writes none of them. -/
def Obligations.EngineIgnoresTheOperandRegisters : Prop :=
  ∀ (s : State) (x y z : Word) (d : Val),
    engineStep { s with src := x, len := y, seed := z, data := d } =
      { engineStep s with src := x, len := y, seed := z, data := d }

/-- 20_memory.md R44 item 2: a store by another agent to the input buffer of a running HASH reaches memory and makes the
byte any value for the rest of that run, and so does a store still to come, as long as no turn before it ends the run;
where a byte is any value, the engine's read of it is the free value, whatever that is.
Marks, look-ahead and draws are the model's (logs 6, 7). -/
def Obligations.StoreDuringARunMakesTheByteAnyValue : Prop :=
  (∀ (s : State) (a : Word) (b : Byte) (rest : List Turn),
    s.eng.phase ≠ .idle → s.agenda = .store a b :: rest →
    s.eng.op.src.toNat ≤ a.toNat → a.toNat < s.eng.op.src.toNat + s.eng.op.len.toNat → s.mem.wf = true →
    ∃ t, step s = .next t ∧ t.mem.read a.toNat = b ∧ t.eng.phase ≠ .idle ∧ a.toNat ∈ t.eng.raced) ∧
  (∀ (s t : State) (a : Nat),
    s.eng.phase ≠ .idle → a ∈ s.eng.raced → step s = .next t → t.eng.phase ≠ .idle → a ∈ t.eng.raced) ∧
  (∀ (s : State) (a : Nat), a ∈ s.eng.raced → isAnyValue s a = true) ∧
  (∀ (s : State) (pre : List Turn) (a : Word) (b : Byte) (rest : List Turn),
    s.agenda = pre ++ .store a b :: rest → (∀ x ∈ pre, endsNoRun x) →
    pre.count .engine < s.eng.stepsLeft - 1 → isAnyValue s a.toNat = true) ∧
  (∀ (s : State) (addr j : Nat),
    isAnyValue s (addr + j) = true → oracleByte s addr j = Config.freeByte (s.draws + j))

/-- 20_memory.md R44 item 1: a store of another agent reaches memory at once; every step but P_HOST_ORDER leaves it
unordered; P_HOST_ORDER orders every earlier store and does nothing else, so that a HASH accepted right after it has no
byte of any value from one. (The list of unordered addresses is the model's, log 6.) -/
def Obligations.StoresStayUnorderedUntilTheHostOrdersThem : Prop :=
  (∀ (s : State) (a : Word) (b : Byte) (rest : List Turn),
    s.eng.phase = .idle → s.agenda = .store a b :: rest → s.mem.wf = true →
    ∃ t, step s = .next t ∧
      t = { s with mem := t.mem, unordered := a.toNat :: s.unordered, agenda := rest } ∧
      t.mem.wf = true ∧ t.mem.read a.toNat = b ∧ ∀ x, x ≠ a.toNat → t.mem.read x = s.mem.read x) ∧
  (∀ (s t : State) (a : Nat), a ∈ s.unordered → (∀ rest, s.agenda ≠ .order :: rest) → step s = .next t →
    a ∈ t.unordered) ∧
  (∀ (s : State) (rest : List Turn), s.agenda = .order :: rest →
    step s = .next { s with unordered := [], agenda := rest }) ∧
  ∀ (s : State) (rest : List Turn) (v : Word) (d : Fin 4) (w : ProcWidth) (o : ViewSel) (aln : Bool),
    s.eng.phase = .idle →
    s.agenda = .order :: .host (.write (s.platform.base + 0x00) 8 v) :: rest →
    decode v = .command (.hash d w o aln) →
    ∃ t u, step s = .next t ∧ step t = .next u ∧ (u.eng.phase ≠ .idle → u.eng.raced = [])

/-! ### The HASH as a whole -/

/-- R88, R89, R103, R105: an accepted HASH, left to itself over memory nobody else writes, takes exactly
NB + [r ≠ 0] + 16 + 5 + 1 micro-steps, is BUSY until the last of them, and then the destination container holds
MeowHash of the input bytes with tag R, whatever W and the aln hint are; nothing else the host can see has changed.
The empty list of turns and the draw counter are the model's (logs 1, 7); the digest rests on the round of R75 to R81 (log 9). -/
def Obligations.HashRunComputesMeowHash : Prop :=
  ∀ (s : State) (d : Fin 4) (w : ProcWidth) (a : ViewWidth) (aln : Bool),
    s.agenda = [] → s.unordered = [] →
    (∀ x, s.src.toNat ≤ x → x < s.src.toNat + s.len.toNat → s.platform.hasSideEffect x = false) →
    s.platform.supports w = true →
    (aln = true → s.src.toNat % (w.bits / 8) = 0) →
    s.src.toNat + s.len.toNat ≤ 2 ^ 64 →
    admitsInput s →
    ∃ t u, exec (.hash d w (.of a) aln) s = .next t ∧
      Sys2Proof.core.run (hashSteps s.len.toNat) t = .next u ∧
      u = { s with err := .ok, eng := u.eng, cont := u.cont, draws := u.draws } ∧ u.eng.phase = .idle ∧
      u.cont.get d = { B := meowHash s.inputBytes s.seed, T := a } ∧
      (∀ c, c ≠ d → u.cont.get c = s.cont.get c) ∧
      ∀ n < hashSteps s.len.toNat, ∃ v, Sys2Proof.core.run n t = .next v ∧ v.eng.phase ≠ .idle ∧ v.cont = s.cont

/-- R105, R139: a busy engine left to itself ends its run within the steps R105 counts, completing in exactly that
number or aborting with BUS before.
The empty list of turns is the model's (log 1). -/
def Obligations.UndisturbedRunEndsWithinItsSteps : Prop :=
  ∀ s : State, s.inv → s.agenda = [] → s.eng.phase ≠ .idle →
    ∃ n t, 1 ≤ n ∧ n ≤ s.eng.stepsLeft ∧ Sys2Proof.core.run n s = .next t ∧ t.eng.phase = .idle ∧
      ((n = s.eng.stepsLeft ∧ t.err = .ok) ∨ t.err = .bus)

/-- R112, R57: which steps are the engine's: a turn of the engine, a wait while BUSY = 1 (the turn stays until BUSY = 0 and
then is over), and, when no turn is left, every step; an engine turn of an idle block does nothing.
The list of turns is the model's (log 1). -/
def Obligations.EngineAndWaitTurnsStepTheEngine : Prop :=
  ∀ (s : State) (rest : List Turn),
    (s.agenda = .engine :: rest → step s = .next (engineStep { s with agenda := rest })) ∧
    (s.agenda = .wait :: rest → s.eng.phase ≠ .idle → step s = .next (engineStep s) ∧ (engineStep s).agenda = s.agenda) ∧
    (s.agenda = .wait :: rest → s.eng.phase = .idle → step s = .next { s with agenda := rest }) ∧
    (s.agenda = [] → step s = .next (engineStep s)) ∧
    (s.eng.phase = .idle → engineStep s = s)

/-! ### Host interface (43_host_interface.md) -/

/-- R107: a step whose turn is an accepted CMD write runs the decoded command, ERR already 0, the turn taken. -/
def Obligations.StepRunsTheDecodedCommand : Prop :=
  ∀ (s : State) (v : Word) (i : Instr) (rest : List Turn),
    hostWrites s 0x00 v rest → s.eng.phase = .idle → decode v = .command i →
    step s = exec i { s with err := .ok, agenda := rest }

/-- R107, for the host's probe: withFetchWord makes the very next step the accepted CMD write of the word.
`withFetchWord` is the model's (log 10). -/
def Obligations.StepRunsTheFetchWord : Prop :=
  ∀ (s : State) (nbits w : Nat) (i : Instr),
    s.eng.phase = .idle → decodeTableWord nbits w = some i →
    step (s.withFetchWord nbits w) = exec i { s with err := .ok }

/-- R107, R121: a CMD write while BUSY = 1 sets WBUSY and nothing else, whatever the word. -/
def Obligations.CmdWriteWhileBusyOnlySetsWbusy : Prop :=
  ∀ (s : State) (v : Word) (rest : List Turn),
    hostWrites s 0x00 v rest → s.eng.phase ≠ .idle →
    step s = .next { s with wbusy := true, agenda := rest }

/-- R108: a host write to STATUS, busy or not. -/
def Obligations.StatusWriteClearsWbusyOnly : Prop :=
  ∀ (s : State) (v : Word) (rest : List Turn), hostWrites s 0x08 v rest →
    step s = .next { s with wbusy := if v.getLsbD 8 then false else s.wbusy, agenda := rest }

/-- R109: writes to SRC, LEN, SEED and DATAk, busy or not; the run in progress is untouched. -/
def Obligations.OperandWritesSetTheirRegisterOnly : Prop :=
  ∀ (s : State) (v : Word) (rest : List Turn),
    (hostWrites s 0x10 v rest → step s = .next { s with src := v, agenda := rest }) ∧
    (hostWrites s 0x18 v rest → step s = .next { s with len := v, agenda := rest }) ∧
    (hostWrites s 0x20 v rest → step s = .next { s with seed := v, agenda := rest }) ∧
    ∀ k < 8, hostWrites s (0x40 + 8 * k) v rest →
      ∃ t, step s = .next t ∧ t = { s with data := t.data, agenda := rest } ∧
        (∀ j < 8, byteAt t.data (8 * k + j) = byteAt v j) ∧
        ∀ j < 64, (j < 8 * k ∨ 8 * k + 8 ≤ j) → byteAt t.data j = byteAt s.data j

/-- R110: writes to CAP and to the reserved offsets have no effect. -/
def Obligations.ReadOnlySlotsIgnoreWrites : Prop :=
  ∀ (s : State) (v : Word) (rest : List Turn) (offset : Nat),
    (offset = 0x28 ∨ offset = 0x30 ∨ offset = 0x38) → hostWrites s offset v rest →
    step s = .next { s with agenda := rest }

/-- R111: what a host read returns, with no other effect.
The list of values read is the model's (log 5). -/
def Obligations.ReadsReturnTheRegisterAndChangeNothing : Prop :=
  ∀ (s : State) (rest : List Turn) (offset : Nat), offset % 8 = 0 → offset ≤ 0x78 →
    s.agenda = .host (.read (s.platform.base + offset) 8) :: rest →
    ∃ v : Word, step s = .next { s with agenda := rest, readLog := s.readLog ++ [v] } ∧
      (offset = 0x00 ∨ offset = 0x30 ∨ offset = 0x38 → v = 0#64) ∧
      (offset = 0x08 → v.toNat =
        (if s.wbusy then 2 ^ 8 else 0) + errNumber s.err * 2 ^ 4 + (if s.eq then 2 else 0)
          + (if s.eng.phase = .idle then 0 else 1)) ∧
      (offset = 0x10 → v = s.src) ∧ (offset = 0x18 → v = s.len) ∧ (offset = 0x20 → v = s.seed) ∧
      (offset = 0x28 → v.toNat =
        1 + (if s.platform.supports .w256 then 2 else 0) + (if s.platform.supports .w512 then 4 else 0)) ∧
      ∀ k, offset = 0x40 + 8 * k → ∀ j < 8, byteAt v j = byteAt s.data (8 * k + j)

/-- R106: an access that touches the window and is not 64-bit and aligned is refused; one outside it is no transition of
the block. That such an access takes its turn and changes nothing at all is the model's choice (log 1). -/
def Obligations.UnadmittedAccessIsRefused : Prop :=
  ∀ (s : State) (addr size : Nat) (v : Word) (rest : List Turn),
    (s.agenda = .host (.read addr size) :: rest ∨ s.agenda = .host (.write addr size v) :: rest) →
    (addr < s.platform.base + 128 → s.platform.base < addr + size →
      ¬ (size = 8 ∧ s.platform.base ≤ addr ∧ (addr - s.platform.base) % 8 = 0) →
      step s = .refused (.unadmittedAccess addr size)) ∧
    ((s.platform.base + 128 ≤ addr ∨ addr + size ≤ s.platform.base) → step s = .next { s with agenda := rest })

/-- R106, S4: an agenda of admitted accesses is never refused, and its rest is such an agenda again.
The list of turns is the model's (log 1). -/
def Obligations.AdmissibleAgendaIsNeverRefused : Prop :=
  ∀ s : State, s.admissible = true → ∃ t, step s = .next t ∧ t.admissible = true

/-- R112, R114, R139: every host program of admitted accesses ends: its last turn is taken and BUSY = 0.
The list of turns, `wait` and the stepping of an idle host's engine are the model's (log 1), and so is that the end waits
for the other agents' turns in the list (log 14). -/
def Obligations.EveryAdmissibleProgramEnds : Prop :=
  ∀ s : State, s.inv → s.admissible = true →
    ∃ n t, Sys2Proof.core.run n s = .next t ∧ t.final = true

/-! ### Reset (70_reset_and_hazards.md) -/

/-- R130: the reset state of every piece of state, in any instance.
The instance State.reset stands in is the model's (log 4). -/
def Obligations.ResetStateIsAsTheTableSays : Prop :=
  (∀ p : Platform,
    statusWord (State.resetWith p) = 0#64 ∧
    (State.resetWith p).src = 0#64 ∧ (State.resetWith p).len = 0#64 ∧ (State.resetWith p).seed = 0#64 ∧
    (capWord (State.resetWith p).platform).toNat =
      1 + (if p.supports .w256 then 2 else 0) + (if p.supports .w512 then 4 else 0) ∧
    (∀ j < 64, byteAt (State.resetWith p).data j = 0x00#8) ∧
    (∀ c, (∀ j < 64, byteAt ((State.resetWith p).cont.get c).B j = 0x00#8) ∧
      ((State.resetWith p).cont.get c).T = .w512) ∧
    (State.resetWith p).eng.phase = .idle) ∧
  ∃ p, State.reset = State.resetWith p

/-- R129, R131: asserting reset puts the block into its reset state whatever it was doing; a run is abandoned with no
container written. Memory and the turns to come are not the block's.
The turn and the fields that stay are the model's (log 1). So are the values of IV, S, RET, OP, BLK, RCNT and WCNT after the
turn, zeros by the model's choice (log 2): R130 and S1 of 93_implementation_defined.md leave them unspecified, and fix
PHASE = IDLE alone. -/
def Obligations.ResetTurnPutsTheBlockIntoItsResetState : Prop :=
  ∀ (s : State) (rest : List Turn), s.agenda = .reset :: rest →
    ∃ t, step s = .next t ∧
      t = { State.resetWith s.platform with
        mem := s.mem, unordered := s.unordered, agenda := rest, readLog := s.readLog, draws := s.draws } ∧
      ∀ x, t.mem.read x = s.mem.read x

/-! ### The whole machine -/

/-- 10_state.md R15, R29, 42_hash_engine.md R90 to R100: every step keeps the invariant, from every state that has it.
The canonical form of memory and the raced bytes are the model's (logs 3, 6). -/
def Obligations.EveryStepKeepsTheInvariant : Prop :=
  ∀ s t : State, s.inv → step s = .next t → t.inv

/-- The invariant holds right after reset, in any instance.
The instance State.reset stands in is the model's (log 4). -/
def Obligations.ResetHasTheInvariant : Prop :=
  (∀ p : Platform, (State.resetWith p).inv) ∧ State.reset.inv

/-- 10_state.md R23: a container changes only by an accepted command that names it as its destination, by the completion
of a HASH that names it, or by reset. -/
def Obligations.ContainersChangeOnlyByNamedWrites : Prop :=
  ∀ (s t : State) (c : Fin 4), step s = .next t → t.cont.get c ≠ s.cont.get c →
    (∃ rest, s.agenda = .reset :: rest) ∨
    (s.eng.phase = .complete ∧ s.eng.op.ca = c ∧ t.cont.get c = { B := s.eng.ret, T := s.eng.op.R }) ∨
    (∃ v i rest, s.eng.phase = .idle ∧ hostWrites s 0x00 v rest ∧ decode v = .command i ∧ dest i = some c)

/-- 10_state.md R32: who writes each flag. BUSY is 1 exactly when PHASE is not IDLE (R30). -/
def Obligations.FlagsChangeOnlyByTheirWriters : Prop :=
  ∀ s t : State, step s = .next t →
    (t.eq ≠ s.eq → (∃ rest, s.agenda = .reset :: rest) ∨
      ∃ v x y rest, s.eng.phase = .idle ∧ hostWrites s 0x00 v rest ∧ decode v = .command (.ceq x y)) ∧
    (t.err ≠ s.err → (∃ rest, s.agenda = .reset :: rest) ∨
      (∃ v rest, s.eng.phase = .idle ∧ hostWrites s 0x00 v rest) ∨ (s.eng.phase ≠ .idle ∧ t.eng.phase = .idle)) ∧
    (t.wbusy = true → s.wbusy = false → ∃ v rest, s.eng.phase ≠ .idle ∧ hostWrites s 0x00 v rest) ∧
    (t.wbusy = false → s.wbusy = true → (∃ rest, s.agenda = .reset :: rest) ∨
      ∃ v rest, hostWrites s 0x08 v rest ∧ v.getLsbD 8 = true) ∧
    (t.eng.phase ≠ .idle → s.eng.phase = .idle →
      ∃ v d w a aln rest, hostWrites s 0x00 v rest ∧ decode v = .command (.hash d w a aln)) ∧
    (t.eng.phase = .idle → s.eng.phase ≠ .idle → (∃ rest, s.agenda = .reset :: rest) ∨
      s.eng.phase = .complete ∨
      (s.eng.phase = .absorb ∧ refused s (s.eng.op.src.toNat + 256 * s.eng.blk) 256) ∨
      (s.eng.phase = .tail ∧
        refused s (s.eng.op.src.toNat + 256 * (s.eng.op.len.toNat / 256)) (s.eng.op.len.toNat % 256)))

/-- 00_scope.md R3, 20_memory.md R44: the block never writes memory; a byte changes only by another agent's store to it.
No step changes the instance's parameters. -/
def Obligations.MemoryChangesOnlyByStoresOfOtherAgents : Prop :=
  ∀ s t : State, step s = .next t →
    t.platform = s.platform ∧
    ∀ x, t.mem.read x ≠ s.mem.read x → ∃ a b rest, s.agenda = .store a b :: rest ∧ a.toNat = x
end

