-- ==== Sys2Proof/Laws/Bytes.lean ====
section
/-! SUPPORT. Bytes and digits of a value (00_scope.md R7, R8): what `packLE`, `ofDigits`, `tabulate` and `byteAt` say of each
other. Later proofs cite these and do not unfold them. -/

namespace Sys2Proof.Machine

/-- The digits packed are below the radix to their number. -/
theorem packLE_lt {w : Nat} (xs : List (BitVec w)) : packLE xs < 2 ^ (w * xs.length) := by
  induction xs with
  | nil => simp [packLE]
  | cons x xs ih =>
    have hx := x.isLt
    have h1 : packLE xs + 1 ≤ 2 ^ (w * xs.length) := ih
    have h2 : 2 ^ w * (packLE xs + 1) ≤ 2 ^ w * 2 ^ (w * xs.length) := Nat.mul_le_mul_left _ h1
    have h3 : 2 ^ (w * (xs.length + 1)) = 2 ^ w * 2 ^ (w * xs.length) := by
      rw [Nat.mul_add, Nat.mul_one, Nat.pow_add, Nat.mul_comm]
    simp only [packLE, List.length_cons]
    rw [h3]
    rw [Nat.mul_add] at h2
    omega

/-- Digit j of the packed number is the j-th digit. -/
theorem packLE_digit {w : Nat} (xs : List (BitVec w)) (j : Nat) :
    packLE xs / 2 ^ (w * j) % 2 ^ w = (xs.getD j 0#w).toNat := by
  induction xs generalizing j with
  | nil => simp [packLE]
  | cons x xs ih =>
    have hx := x.isLt
    cases j with
    | zero => simp [packLE, Nat.mod_eq_of_lt hx]
    | succ j =>
      have h : 2 ^ (w * (j + 1)) = 2 ^ w * 2 ^ (w * j) := by
        rw [Nat.mul_add, Nat.mul_one, Nat.pow_add, Nat.mul_comm]
      have hd : (x.toNat + 2 ^ w * packLE xs) / 2 ^ w = packLE xs := by
        rw [Nat.add_mul_div_left _ _ (Nat.two_pow_pos w), Nat.div_eq_of_lt hx, Nat.zero_add]
      simp only [packLE, List.getD_cons_succ]
      rw [h, ← Nat.div_div_eq_div_mul, hd, ih]

/-- The digit of a value read back. -/
theorem extract_ofDigits {n w : Nat} (xs : List (BitVec w)) (j : Nat) (h : w * (j + 1) ≤ n) :
    (ofDigits n xs).extractLsb' (w * j) w = xs.getD j 0#w := by
  apply BitVec.eq_of_toNat_eq
  have hn : n = w * j + (n - w * j) := by
    have : w * (j + 1) = w * j + w := Nat.mul_succ _ _
    omega
  have hle : w ≤ n - w * j := by
    have : w * (j + 1) = w * j + w := Nat.mul_succ _ _
    omega
  rw [BitVec.extractLsb'_toNat, ofDigits, BitVec.toNat_ofNat, Nat.shiftRight_eq_div_pow]
  have h1 : packLE xs % 2 ^ n / 2 ^ (w * j) = packLE xs / 2 ^ (w * j) % 2 ^ (n - w * j) := by
    conv => lhs; rw [hn, Nat.pow_add]
    rw [Nat.mod_mul_right_div_self]
  rw [h1, Nat.mod_mod_of_dvd _ (Nat.pow_dvd_pow 2 hle), packLE_digit]

/-- Byte j of a tabulated value. -/
theorem byteAt_tabulate (f : Nat → Byte) {j : Nat} (h : j < 64) : byteAt (tabulate f) j = f j := by
  unfold byteAt tabulate
  rw [extract_ofDigits _ _ (by omega)]
  simp [List.getD, h]

/-- Bit k of byte j is bit 8 j + k. -/
theorem getLsbD_byteAt {n : Nat} (v : BitVec n) (j k : Nat) :
    (byteAt v j).getLsbD k = (decide (k < 8) && v.getLsbD (8 * j + k)) := by
  simp [byteAt]

/-- Bit m of a value is bit m mod 8 of byte m div 8. -/
theorem getLsbD_eq_byteAt {n : Nat} (v : BitVec n) (m : Nat) : v.getLsbD m = (byteAt v (m / 8)).getLsbD (m % 8) := by
  have hm : m % 8 < 8 := Nat.mod_lt _ (by decide)
  rw [getLsbD_byteAt, Nat.div_add_mod]
  simp [hm]

/-- Two values with the same bytes are equal. -/
theorem eq_of_byteAt {n : Nat} {x y : BitVec (8 * n)} (h : ∀ j < n, byteAt x j = byteAt y j) : x = y := by
  apply BitVec.eq_of_getLsbD_eq
  intro i hi
  have hb := congrArg (fun b : Byte => b.getLsbD (i % 8)) (h (i / 8) (by omega))
  have hm : i % 8 < 8 := Nat.mod_lt _ (by decide)
  have he : 8 * (i / 8) + i % 8 = i := Nat.div_add_mod i 8
  simpa [byteAt, hm, he] using hb

/-- Two 64-byte values with the same bytes are equal. -/
theorem val_ext {x y : Val} (h : ∀ j < 64, byteAt x j = byteAt y j) : x = y := eq_of_byteAt (n := 64) h

/-- Two lanes with the same bytes are equal. -/
theorem lane_ext {x y : Lane} (h : ∀ j < 16, byteAt x j = byteAt y j) : x = y := eq_of_byteAt (n := 16) h

/-- Byte j of lane L is byte 16 L + j. -/
theorem byteAt_lane (v : Val) (L : Nat) {j : Nat} (h : j < 16) : byteAt (lane v L) j = byteAt v (16 * L + j) := by
  apply BitVec.eq_of_getLsbD_eq
  intro i hi
  have h1 : 8 * j + i < 128 := by omega
  have h2 : 128 * L + (8 * j + i) = 8 * (16 * L + j) + i := by omega
  simp [byteAt, lane, hi, h1, h2]

/-- A byte of a xor. -/
theorem byteAt_xor {n : Nat} (x y : BitVec n) (j : Nat) : byteAt (x ^^^ y) j = byteAt x j ^^^ byteAt y j := by
  simp [byteAt, BitVec.extractLsb'_xor]

/-- Lane L of a value made of four lanes. -/
theorem lane_ofDigits (xs : List Lane) {L : Nat} (h : L < 4) : lane (ofDigits 512 xs) L = xs.getD L 0#128 :=
  extract_ofDigits xs L (by omega)

/-- Two values with the same lanes are equal. -/
theorem val_ext_lane {x y : Val} (h : ∀ L < 4, lane x L = lane y L) : x = y := by
  apply val_ext
  intro j hj
  have hb := congrArg (fun l => byteAt l (j % 16)) (h (j / 16) (by omega))
  have hm : j % 16 < 16 := Nat.mod_lt _ (by decide)
  simp only [byteAt_lane _ _ hm] at hb
  have he : 16 * (j / 16) + j % 16 = j := Nat.div_add_mod j 16
  rwa [he] at hb

/-! ### Elements and DATA words (40_container.md R68 to R71, 10_state.md R21) -/

/-- The bytes of an element. -/
theorem byteAt_element (v : Val) (a : ViewWidth) (idx : Nat) {j : Nat} (h : j < 64) :
    byteAt (element v a idx) j = if j < a.bytes then byteAt v (a.bytes * idx + j) else 0x00#8 :=
  byteAt_tabulate _ h

/-- The bytes after an element is written. -/
theorem byteAt_setElement (v : Val) (a : ViewWidth) (idx : Nat) (d : Val) {j : Nat} (h : j < 64) :
    byteAt (setElement v a idx d) j =
      if a.bytes * idx ≤ j ∧ j < a.bytes * idx + a.bytes then byteAt d (j - a.bytes * idx) else byteAt v j :=
  byteAt_tabulate _ h

/-- The bytes of DATA after a host write of one word. -/
theorem byteAt_setDataWord (v : Val) (k : Nat) (x : Word) {j : Nat} (h : j < 64) :
    byteAt (setDataWord v k x) j = if 8 * k ≤ j ∧ j < 8 * k + 8 then byteAt x (j - 8 * k) else byteAt v j :=
  byteAt_tabulate _ h

/-- Byte j of DATA word k is byte 8 k + j of DATA. -/
theorem byteAt_dataWord (v : Val) (k : Nat) {j : Nat} (h : j < 8) :
    byteAt (dataWord v k) j = byteAt v (8 * k + j) := by
  apply BitVec.eq_of_getLsbD_eq
  intro i hi
  have h1 : 8 * j + i < 64 := by omega
  have h2 : 64 * k + (8 * j + i) = 8 * (8 * k + j) + i := by omega
  simp [byteAt, dataWord, hi, h1, h2]

/-- The element is the value's bits from `a.bits * idx` on, zero extended (R68). -/
theorem element_eq_extract (v : Val) (a : ViewWidth) (idx : Nat) :
    element v a idx = (v.extractLsb' (a.bits * idx) a.bits).setWidth 512 := by
  apply BitVec.eq_of_getLsbD_eq
  intro m hm
  have h8 : m % 8 < 8 := Nat.mod_lt _ (by decide)
  have hb : a.bits = 8 * a.bytes := by cases a <;> rfl
  have hi : 8 * (a.bytes * idx + m / 8) + m % 8 = a.bits * idx + m := by rw [hb, Nat.mul_assoc]; omega
  rw [getLsbD_eq_byteAt, byteAt_element _ _ _ (by omega : m / 8 < 64)]
  rw [BitVec.getLsbD_setWidth, BitVec.getLsbD_extractLsb', decide_eq_true hm, Bool.true_and]
  by_cases hlt : m / 8 < a.bytes
  · rw [if_pos hlt, getLsbD_byteAt, hi, decide_eq_true h8, decide_eq_true (by omega : m < a.bits)]
  · rw [if_neg hlt, decide_eq_false (by omega : ¬ m < a.bits), Bool.false_and, BitVec.getLsbD_zero]

/-- The element as an integer: `le(B[(A/8)·index .. (A/8)·(index+1)))` (R68). -/
theorem element_toNat (v : Val) (a : ViewWidth) (idx : Nat) :
    (element v a idx).toNat = v.toNat / 2 ^ (a.bits * idx) % 2 ^ a.bits := by
  rw [element_eq_extract, BitVec.toNat_setWidth_of_le (by cases a <;> decide), BitVec.extractLsb'_toNat,
    Nat.shiftRight_eq_div_pow]

/-- The range check (R63). -/
@[simp] theorem elemExists_iff_lt (a : ViewWidth) (idx : Nat) : elemExists a idx = true ↔ idx < 512 / a.bits := by
  simp [elemExists]

/-- An index is in range exactly when the element's bytes are inside the value (R63). -/
theorem elemExists_iff (a : ViewWidth) (idx : Nat) : elemExists a idx = true ↔ a.bytes * (idx + 1) ≤ 64 := by
  rw [elemExists_iff_lt]
  cases a <;> simp only [ViewWidth.bits, ViewWidth.bytes] <;> omega

end Sys2Proof.Machine
end

