-- ==== Sys2Proof/Laws/Decode.lean ====
section
/-! SUPPORT. The fields of a CMD write and of an encoded command as numbers (30_encoding.md R50, R51). -/

namespace Sys2Proof

/-- A field as a number. -/
theorem field_eq (v : Word) (lo width : Nat) : field v lo width = v.toNat / 2 ^ lo % 2 ^ width := by
  simp [field, Nat.shiftRight_eq_div_pow]

/-- A two-bit field is the container number it names. -/
theorem field_eq_containerOf (v : Word) (lo : Nat) : field v lo 2 = (containerOf v lo).val := rfl

/-- The `aln` bit as a number. -/
theorem field_aln (v : Word) : field v 13 1 = (v.getLsbD 13).toNat := by
  have h2 : v.toNat / 2 ^ 13 % 2 < 2 := Nat.mod_lt _ (by decide)
  rw [field_eq, BitVec.getLsbD, Nat.testBit_eq_decide_div_mod_eq]
  show v.toNat / 2 ^ 13 % 2 = _
  rcases (by omega : v.toNat / 2 ^ 13 % 2 = 0 ∨ v.toNat / 2 ^ 13 % 2 = 1) with h | h <;> rw [h] <;> rfl

/-- A `wa` code names the width with that code. -/
theorem viewSelOfCode_eq_some {n : Nat} {a : ViewSel} : viewSelOfCode n = some a ↔ a.code = n := by
  constructor
  · intro h
    unfold viewSelOfCode at h
    split at h <;> first | (injection h with h; subst h; rfl) | cases h
  · rintro rfl
    cases a with
    | tag => rfl
    | of w => cases w <;> rfl

/-- A `wp` code names the width with that code. -/
theorem procWidthOfCode_eq_some {n : Nat} {w : ProcWidth} : procWidthOfCode n = some w ↔ w.code = n := by
  constructor
  · intro h
    unfold procWidthOfCode at h
    split at h <;> first | (injection h with h; subst h; rfl) | cases h
  · rintro rfl
    cases w <;> rfl

/-- The number of a packed command word. -/
theorem packFields_toNat {op ca cb wa wp aln idx : Nat} (h0 : op < 16) (h1 : ca < 4) (h2 : cb < 4) (h3 : wa < 8)
    (h4 : wp < 4) (h5 : aln < 2) (h6 : idx < 16) :
    ((packFields op ca cb wa wp aln idx).setWidth 64 : Word).toNat =
      op + ca * 2 ^ 4 + cb * 2 ^ 6 + wa * 2 ^ 8 + wp * 2 ^ 11 + aln * 2 ^ 13 + idx * 2 ^ 14 := by
  rw [BitVec.toNat_setWidth_of_le (by decide), packFields, BitVec.toNat_ofNat, Nat.mod_eq_of_lt (by omega)]

/-- A CMD write is what its fields pack to. -/
theorem packFields_of_fields {v : Word} {op ca cb wa wp aln idx : Nat} (h0 : field v 0 4 = op) (h1 : field v 4 2 = ca)
    (h2 : field v 6 2 = cb) (h3 : field v 8 3 = wa) (h4 : field v 11 2 = wp) (h5 : field v 13 1 = aln)
    (h6 : field v 14 4 = idx) (h7 : field v 18 14 = 0) (h8 : field v 32 32 = 0) :
    ((packFields op ca cb wa wp aln idx).setWidth 64 : Word) = v := by
  simp only [field_eq] at *
  apply BitVec.eq_of_toNat_eq
  have := v.isLt
  rw [packFields_toNat (by omega) (by omega) (by omega) (by omega) (by omega) (by omega) (by omega)]
  omega

end Sys2Proof
end

