-- ==== Sys2Proof/Laws/Memory.lean ====
section
/-! SUPPORT. Platform memory: a read after a write, the canonical form, and that every operation keeps it. -/

namespace Sys2Proof.Machine

/-- Every address of the memory is above `k`. -/
def Memory.above (k : Nat) (m : Memory) : Prop := ∀ c ∈ m, k < c.1

/-- The canonical form of a memory with a first entry. -/
theorem Memory.wf_cons (k : Nat) (b : Byte) (m : Memory) :
    Memory.wf ((k, b) :: m) = true ↔ k < 2 ^ 64 ∧ b ≠ unlistedByte ∧ Memory.above k m ∧ Memory.wf m = true := by
  simp [Memory.wf, Memory.above, and_assoc]

/-- An address below all listed ones reads as unlisted. -/
theorem Memory.read_of_not_listed (m : Memory) (a : Nat) (h : ∀ c ∈ m, c.1 ≠ a) : Memory.read m a = unlistedByte := by
  induction m with
  | nil => rfl
  | cons c m ih =>
    obtain ⟨k, b⟩ := c
    have hk : a ≠ k := fun e => h (k, b) (by simp) e.symm
    simp only [Memory.read, hk, if_false]
    exact ih fun c hc => h c (by simp [hc])

/-- A read after a write to the same address gives the value written. -/
theorem Memory.read_write_same (m : Memory) (a : Nat) (b : Byte) (h : Memory.wf m = true) :
    Memory.read (Memory.write m a b) a = b := by
  induction m with
  | nil =>
    by_cases hb : b = unlistedByte
    · simp [Memory.write, Memory.read, hb]
    · simp [Memory.write, Memory.read, hb]
  | cons c m ih =>
    obtain ⟨k, x⟩ := c
    obtain ⟨-, -, hab, hm⟩ := (Memory.wf_cons k x m).1 h
    by_cases hlt : a < k
    · have hno : ∀ c ∈ (k, x) :: m, c.1 ≠ a := by
        intro c hc
        rcases List.mem_cons.1 hc with rfl | hc
        · exact Nat.ne_of_gt hlt
        · exact Nat.ne_of_gt (Nat.lt_trans hlt (hab c hc))
      by_cases hb : b = unlistedByte
      · simp only [Memory.write, hlt, if_true, hb]
        exact Memory.read_of_not_listed _ _ hno
      · simp [Memory.write, hlt, hb, Memory.read]
    · by_cases heq : a = k
      · subst heq
        by_cases hb : b = unlistedByte
        · simp only [Memory.write, Nat.lt_irrefl, if_false, if_true, hb]
          exact Memory.read_of_not_listed _ _ fun c hc => Nat.ne_of_gt (hab c hc)
        · simp [Memory.write, hb, Memory.read]
      · simp [Memory.write, hlt, heq, Memory.read, ih hm]

/-- A write leaves every other address alone. -/
theorem Memory.read_write_ne (m : Memory) {a a' : Nat} (b : Byte) (h : a' ≠ a) :
    Memory.read (Memory.write m a b) a' = Memory.read m a' := by
  induction m with
  | nil => by_cases hb : b = unlistedByte <;> simp [Memory.write, Memory.read, hb, h]
  | cons c m ih =>
    obtain ⟨k, x⟩ := c
    by_cases hlt : a < k
    · by_cases hb : b = unlistedByte <;> simp [Memory.write, hlt, hb, Memory.read, h]
    · by_cases heq : a = k
      · subst heq
        by_cases hb : b = unlistedByte <;> simp [Memory.write, hb, Memory.read, h]
      · by_cases hk : a' = k <;> simp [Memory.write, hlt, heq, Memory.read, hk, ih]

/-- A write keeps every address above a bound that was above it. -/
theorem Memory.above_write {k a : Nat} (m : Memory) (b : Byte) (hm : Memory.above k m) (ha : k < a) :
    Memory.above k (Memory.write m a b) := by
  induction m with
  | nil =>
    by_cases hb : b = unlistedByte <;> simp [Memory.above, Memory.write, hb, ha]
  | cons c m ih =>
    obtain ⟨k', x⟩ := c
    have hk' : k < k' := hm (k', x) (by simp)
    have hm' : Memory.above k m := fun c hc => hm c (by simp [hc])
    by_cases hlt : a < k'
    · by_cases hb : b = unlistedByte
      · simpa [Memory.write, hlt, hb] using hm
      · intro c hc
        simp only [Memory.write, hlt, hb, if_true, if_false, List.mem_cons] at hc
        rcases hc with rfl | rfl | hc
        · exact ha
        · exact hk'
        · exact hm' c hc
    · by_cases heq : a = k'
      · subst heq
        by_cases hb : b = unlistedByte
        · simpa [Memory.write, hb] using hm'
        · intro c hc
          simp only [Memory.write, Nat.lt_irrefl, hb, if_true, if_false, List.mem_cons] at hc
          rcases hc with rfl | hc
          · exact ha
          · exact hm' c hc
      · intro c hc
        simp only [Memory.write, hlt, heq, if_false, List.mem_cons] at hc
        rcases hc with rfl | hc
        · exact hk'
        · exact ih hm' c hc

/-- A write to a 64-bit address keeps the canonical form. -/
theorem Memory.wf_write (m : Memory) (a : Nat) (b : Byte) (h : Memory.wf m = true) (ha : a < 2 ^ 64) :
    Memory.wf (Memory.write m a b) = true := by
  induction m with
  | nil => by_cases hb : b = unlistedByte <;> simp [Memory.write, Memory.wf, hb]; omega
  | cons c m ih =>
    obtain ⟨k, x⟩ := c
    obtain ⟨hk, hx, hab, hm⟩ := (Memory.wf_cons k x m).1 h
    by_cases hlt : a < k
    · by_cases hb : b = unlistedByte
      · simpa [Memory.write, hlt, hb] using h
      · simp only [Memory.write, hlt, hb, if_true, if_false]
        refine (Memory.wf_cons _ _ _).2 ⟨ha, hb, ?_, h⟩
        intro c hc
        rcases List.mem_cons.1 hc with rfl | hc
        · exact hlt
        · exact Nat.lt_trans hlt (hab c hc)
    · by_cases heq : a = k
      · subst heq
        by_cases hb : b = unlistedByte
        · simpa [Memory.write, hb] using hm
        · simp only [Memory.write, Nat.lt_irrefl, hb, if_true, if_false]
          exact (Memory.wf_cons _ _ _).2 ⟨hk, hb, hab, hm⟩
      · simp only [Memory.write, hlt, heq, if_false]
        exact (Memory.wf_cons _ _ _).2 ⟨hk, hx, Memory.above_write m b hab (by omega), ih hm⟩

/-- The memory of State.reset is in canonical form. -/
theorem State.resetWith_mem_wf (p : Platform) : (State.resetWith p).mem.wf = true := rfl

/-- A store of another agent keeps the canonical form. -/
theorem storeByte_mem_wf (a : Word) (b : Byte) (s : State) (h : s.mem.wf = true) : (storeByte a b s).mem.wf = true :=
  Memory.wf_write _ _ _ h a.isLt

end Sys2Proof.Machine
end

