-- ==== Sys2Proof/Laws/State.lean ====
section
/-! SUPPORT. One lemma per field per update of State, true by rfl, so that no later proof unfolds a record update; and the
laws of the files of four. -/

namespace Sys2Proof.Machine

@[simp] theorem State.setEq_eq (s : State) (b : Bool) : (s.setEq b).eq = b := rfl
@[simp] theorem State.setEq_err (s : State) (b : Bool) : (s.setEq b).err = s.err := rfl
@[simp] theorem State.setEq_wbusy (s : State) (b : Bool) : (s.setEq b).wbusy = s.wbusy := rfl
@[simp] theorem State.setEq_src (s : State) (b : Bool) : (s.setEq b).src = s.src := rfl
@[simp] theorem State.setEq_len (s : State) (b : Bool) : (s.setEq b).len = s.len := rfl
@[simp] theorem State.setEq_seed (s : State) (b : Bool) : (s.setEq b).seed = s.seed := rfl
@[simp] theorem State.setEq_data (s : State) (b : Bool) : (s.setEq b).data = s.data := rfl
@[simp] theorem State.setEq_cont (s : State) (b : Bool) : (s.setEq b).cont = s.cont := rfl
@[simp] theorem State.setEq_eng (s : State) (b : Bool) : (s.setEq b).eng = s.eng := rfl
@[simp] theorem State.setEq_mem (s : State) (b : Bool) : (s.setEq b).mem = s.mem := rfl
@[simp] theorem State.setEq_unordered (s : State) (b : Bool) : (s.setEq b).unordered = s.unordered := rfl
@[simp] theorem State.setEq_platform (s : State) (b : Bool) : (s.setEq b).platform = s.platform := rfl
@[simp] theorem State.setEq_agenda (s : State) (b : Bool) : (s.setEq b).agenda = s.agenda := rfl
@[simp] theorem State.setEq_readLog (s : State) (b : Bool) : (s.setEq b).readLog = s.readLog := rfl
@[simp] theorem State.setEq_draws (s : State) (b : Bool) : (s.setEq b).draws = s.draws := rfl

@[simp] theorem State.setErr_eq (s : State) (e : ErrCode) : (s.setErr e).eq = s.eq := rfl
@[simp] theorem State.setErr_err (s : State) (e : ErrCode) : (s.setErr e).err = e := rfl
@[simp] theorem State.setErr_wbusy (s : State) (e : ErrCode) : (s.setErr e).wbusy = s.wbusy := rfl
@[simp] theorem State.setErr_src (s : State) (e : ErrCode) : (s.setErr e).src = s.src := rfl
@[simp] theorem State.setErr_len (s : State) (e : ErrCode) : (s.setErr e).len = s.len := rfl
@[simp] theorem State.setErr_seed (s : State) (e : ErrCode) : (s.setErr e).seed = s.seed := rfl
@[simp] theorem State.setErr_data (s : State) (e : ErrCode) : (s.setErr e).data = s.data := rfl
@[simp] theorem State.setErr_cont (s : State) (e : ErrCode) : (s.setErr e).cont = s.cont := rfl
@[simp] theorem State.setErr_eng (s : State) (e : ErrCode) : (s.setErr e).eng = s.eng := rfl
@[simp] theorem State.setErr_mem (s : State) (e : ErrCode) : (s.setErr e).mem = s.mem := rfl
@[simp] theorem State.setErr_unordered (s : State) (e : ErrCode) : (s.setErr e).unordered = s.unordered := rfl
@[simp] theorem State.setErr_platform (s : State) (e : ErrCode) : (s.setErr e).platform = s.platform := rfl
@[simp] theorem State.setErr_agenda (s : State) (e : ErrCode) : (s.setErr e).agenda = s.agenda := rfl
@[simp] theorem State.setErr_readLog (s : State) (e : ErrCode) : (s.setErr e).readLog = s.readLog := rfl
@[simp] theorem State.setErr_draws (s : State) (e : ErrCode) : (s.setErr e).draws = s.draws := rfl

@[simp] theorem State.setWbusy_eq (s : State) (b : Bool) : (s.setWbusy b).eq = s.eq := rfl
@[simp] theorem State.setWbusy_err (s : State) (b : Bool) : (s.setWbusy b).err = s.err := rfl
@[simp] theorem State.setWbusy_wbusy (s : State) (b : Bool) : (s.setWbusy b).wbusy = b := rfl
@[simp] theorem State.setWbusy_src (s : State) (b : Bool) : (s.setWbusy b).src = s.src := rfl
@[simp] theorem State.setWbusy_len (s : State) (b : Bool) : (s.setWbusy b).len = s.len := rfl
@[simp] theorem State.setWbusy_seed (s : State) (b : Bool) : (s.setWbusy b).seed = s.seed := rfl
@[simp] theorem State.setWbusy_data (s : State) (b : Bool) : (s.setWbusy b).data = s.data := rfl
@[simp] theorem State.setWbusy_cont (s : State) (b : Bool) : (s.setWbusy b).cont = s.cont := rfl
@[simp] theorem State.setWbusy_eng (s : State) (b : Bool) : (s.setWbusy b).eng = s.eng := rfl
@[simp] theorem State.setWbusy_mem (s : State) (b : Bool) : (s.setWbusy b).mem = s.mem := rfl
@[simp] theorem State.setWbusy_unordered (s : State) (b : Bool) : (s.setWbusy b).unordered = s.unordered := rfl
@[simp] theorem State.setWbusy_platform (s : State) (b : Bool) : (s.setWbusy b).platform = s.platform := rfl
@[simp] theorem State.setWbusy_agenda (s : State) (b : Bool) : (s.setWbusy b).agenda = s.agenda := rfl
@[simp] theorem State.setWbusy_readLog (s : State) (b : Bool) : (s.setWbusy b).readLog = s.readLog := rfl
@[simp] theorem State.setWbusy_draws (s : State) (b : Bool) : (s.setWbusy b).draws = s.draws := rfl

@[simp] theorem State.setSrc_eq (s : State) (v : Word) : (s.setSrc v).eq = s.eq := rfl
@[simp] theorem State.setSrc_err (s : State) (v : Word) : (s.setSrc v).err = s.err := rfl
@[simp] theorem State.setSrc_wbusy (s : State) (v : Word) : (s.setSrc v).wbusy = s.wbusy := rfl
@[simp] theorem State.setSrc_src (s : State) (v : Word) : (s.setSrc v).src = v := rfl
@[simp] theorem State.setSrc_len (s : State) (v : Word) : (s.setSrc v).len = s.len := rfl
@[simp] theorem State.setSrc_seed (s : State) (v : Word) : (s.setSrc v).seed = s.seed := rfl
@[simp] theorem State.setSrc_data (s : State) (v : Word) : (s.setSrc v).data = s.data := rfl
@[simp] theorem State.setSrc_cont (s : State) (v : Word) : (s.setSrc v).cont = s.cont := rfl
@[simp] theorem State.setSrc_eng (s : State) (v : Word) : (s.setSrc v).eng = s.eng := rfl
@[simp] theorem State.setSrc_mem (s : State) (v : Word) : (s.setSrc v).mem = s.mem := rfl
@[simp] theorem State.setSrc_unordered (s : State) (v : Word) : (s.setSrc v).unordered = s.unordered := rfl
@[simp] theorem State.setSrc_platform (s : State) (v : Word) : (s.setSrc v).platform = s.platform := rfl
@[simp] theorem State.setSrc_agenda (s : State) (v : Word) : (s.setSrc v).agenda = s.agenda := rfl
@[simp] theorem State.setSrc_readLog (s : State) (v : Word) : (s.setSrc v).readLog = s.readLog := rfl
@[simp] theorem State.setSrc_draws (s : State) (v : Word) : (s.setSrc v).draws = s.draws := rfl

@[simp] theorem State.setLen_eq (s : State) (v : Word) : (s.setLen v).eq = s.eq := rfl
@[simp] theorem State.setLen_err (s : State) (v : Word) : (s.setLen v).err = s.err := rfl
@[simp] theorem State.setLen_wbusy (s : State) (v : Word) : (s.setLen v).wbusy = s.wbusy := rfl
@[simp] theorem State.setLen_src (s : State) (v : Word) : (s.setLen v).src = s.src := rfl
@[simp] theorem State.setLen_len (s : State) (v : Word) : (s.setLen v).len = v := rfl
@[simp] theorem State.setLen_seed (s : State) (v : Word) : (s.setLen v).seed = s.seed := rfl
@[simp] theorem State.setLen_data (s : State) (v : Word) : (s.setLen v).data = s.data := rfl
@[simp] theorem State.setLen_cont (s : State) (v : Word) : (s.setLen v).cont = s.cont := rfl
@[simp] theorem State.setLen_eng (s : State) (v : Word) : (s.setLen v).eng = s.eng := rfl
@[simp] theorem State.setLen_mem (s : State) (v : Word) : (s.setLen v).mem = s.mem := rfl
@[simp] theorem State.setLen_unordered (s : State) (v : Word) : (s.setLen v).unordered = s.unordered := rfl
@[simp] theorem State.setLen_platform (s : State) (v : Word) : (s.setLen v).platform = s.platform := rfl
@[simp] theorem State.setLen_agenda (s : State) (v : Word) : (s.setLen v).agenda = s.agenda := rfl
@[simp] theorem State.setLen_readLog (s : State) (v : Word) : (s.setLen v).readLog = s.readLog := rfl
@[simp] theorem State.setLen_draws (s : State) (v : Word) : (s.setLen v).draws = s.draws := rfl

@[simp] theorem State.setSeed_eq (s : State) (v : Word) : (s.setSeed v).eq = s.eq := rfl
@[simp] theorem State.setSeed_err (s : State) (v : Word) : (s.setSeed v).err = s.err := rfl
@[simp] theorem State.setSeed_wbusy (s : State) (v : Word) : (s.setSeed v).wbusy = s.wbusy := rfl
@[simp] theorem State.setSeed_src (s : State) (v : Word) : (s.setSeed v).src = s.src := rfl
@[simp] theorem State.setSeed_len (s : State) (v : Word) : (s.setSeed v).len = s.len := rfl
@[simp] theorem State.setSeed_seed (s : State) (v : Word) : (s.setSeed v).seed = v := rfl
@[simp] theorem State.setSeed_data (s : State) (v : Word) : (s.setSeed v).data = s.data := rfl
@[simp] theorem State.setSeed_cont (s : State) (v : Word) : (s.setSeed v).cont = s.cont := rfl
@[simp] theorem State.setSeed_eng (s : State) (v : Word) : (s.setSeed v).eng = s.eng := rfl
@[simp] theorem State.setSeed_mem (s : State) (v : Word) : (s.setSeed v).mem = s.mem := rfl
@[simp] theorem State.setSeed_unordered (s : State) (v : Word) : (s.setSeed v).unordered = s.unordered := rfl
@[simp] theorem State.setSeed_platform (s : State) (v : Word) : (s.setSeed v).platform = s.platform := rfl
@[simp] theorem State.setSeed_agenda (s : State) (v : Word) : (s.setSeed v).agenda = s.agenda := rfl
@[simp] theorem State.setSeed_readLog (s : State) (v : Word) : (s.setSeed v).readLog = s.readLog := rfl
@[simp] theorem State.setSeed_draws (s : State) (v : Word) : (s.setSeed v).draws = s.draws := rfl

@[simp] theorem State.setData_eq (s : State) (v : Val) : (s.setData v).eq = s.eq := rfl
@[simp] theorem State.setData_err (s : State) (v : Val) : (s.setData v).err = s.err := rfl
@[simp] theorem State.setData_wbusy (s : State) (v : Val) : (s.setData v).wbusy = s.wbusy := rfl
@[simp] theorem State.setData_src (s : State) (v : Val) : (s.setData v).src = s.src := rfl
@[simp] theorem State.setData_len (s : State) (v : Val) : (s.setData v).len = s.len := rfl
@[simp] theorem State.setData_seed (s : State) (v : Val) : (s.setData v).seed = s.seed := rfl
@[simp] theorem State.setData_data (s : State) (v : Val) : (s.setData v).data = v := rfl
@[simp] theorem State.setData_cont (s : State) (v : Val) : (s.setData v).cont = s.cont := rfl
@[simp] theorem State.setData_eng (s : State) (v : Val) : (s.setData v).eng = s.eng := rfl
@[simp] theorem State.setData_mem (s : State) (v : Val) : (s.setData v).mem = s.mem := rfl
@[simp] theorem State.setData_unordered (s : State) (v : Val) : (s.setData v).unordered = s.unordered := rfl
@[simp] theorem State.setData_platform (s : State) (v : Val) : (s.setData v).platform = s.platform := rfl
@[simp] theorem State.setData_agenda (s : State) (v : Val) : (s.setData v).agenda = s.agenda := rfl
@[simp] theorem State.setData_readLog (s : State) (v : Val) : (s.setData v).readLog = s.readLog := rfl
@[simp] theorem State.setData_draws (s : State) (v : Val) : (s.setData v).draws = s.draws := rfl

@[simp] theorem State.setCont_eq (s : State) (c : Fin 4) (k : Container) : (s.setCont c k).eq = s.eq := rfl
@[simp] theorem State.setCont_err (s : State) (c : Fin 4) (k : Container) : (s.setCont c k).err = s.err := rfl
@[simp] theorem State.setCont_wbusy (s : State) (c : Fin 4) (k : Container) : (s.setCont c k).wbusy = s.wbusy := rfl
@[simp] theorem State.setCont_src (s : State) (c : Fin 4) (k : Container) : (s.setCont c k).src = s.src := rfl
@[simp] theorem State.setCont_len (s : State) (c : Fin 4) (k : Container) : (s.setCont c k).len = s.len := rfl
@[simp] theorem State.setCont_seed (s : State) (c : Fin 4) (k : Container) : (s.setCont c k).seed = s.seed := rfl
@[simp] theorem State.setCont_data (s : State) (c : Fin 4) (k : Container) : (s.setCont c k).data = s.data := rfl
@[simp] theorem State.setCont_cont (s : State) (c : Fin 4) (k : Container) : (s.setCont c k).cont = s.cont.set c k := rfl
@[simp] theorem State.setCont_eng (s : State) (c : Fin 4) (k : Container) : (s.setCont c k).eng = s.eng := rfl
@[simp] theorem State.setCont_mem (s : State) (c : Fin 4) (k : Container) : (s.setCont c k).mem = s.mem := rfl
@[simp] theorem State.setCont_unordered (s : State) (c : Fin 4) (k : Container) : (s.setCont c k).unordered = s.unordered := rfl
@[simp] theorem State.setCont_platform (s : State) (c : Fin 4) (k : Container) : (s.setCont c k).platform = s.platform := rfl
@[simp] theorem State.setCont_agenda (s : State) (c : Fin 4) (k : Container) : (s.setCont c k).agenda = s.agenda := rfl
@[simp] theorem State.setCont_readLog (s : State) (c : Fin 4) (k : Container) : (s.setCont c k).readLog = s.readLog := rfl
@[simp] theorem State.setCont_draws (s : State) (c : Fin 4) (k : Container) : (s.setCont c k).draws = s.draws := rfl

@[simp] theorem State.setEng_eq (s : State) (e : Engine) : (s.setEng e).eq = s.eq := rfl
@[simp] theorem State.setEng_err (s : State) (e : Engine) : (s.setEng e).err = s.err := rfl
@[simp] theorem State.setEng_wbusy (s : State) (e : Engine) : (s.setEng e).wbusy = s.wbusy := rfl
@[simp] theorem State.setEng_src (s : State) (e : Engine) : (s.setEng e).src = s.src := rfl
@[simp] theorem State.setEng_len (s : State) (e : Engine) : (s.setEng e).len = s.len := rfl
@[simp] theorem State.setEng_seed (s : State) (e : Engine) : (s.setEng e).seed = s.seed := rfl
@[simp] theorem State.setEng_data (s : State) (e : Engine) : (s.setEng e).data = s.data := rfl
@[simp] theorem State.setEng_cont (s : State) (e : Engine) : (s.setEng e).cont = s.cont := rfl
@[simp] theorem State.setEng_eng (s : State) (e : Engine) : (s.setEng e).eng = e := rfl
@[simp] theorem State.setEng_mem (s : State) (e : Engine) : (s.setEng e).mem = s.mem := rfl
@[simp] theorem State.setEng_unordered (s : State) (e : Engine) : (s.setEng e).unordered = s.unordered := rfl
@[simp] theorem State.setEng_platform (s : State) (e : Engine) : (s.setEng e).platform = s.platform := rfl
@[simp] theorem State.setEng_agenda (s : State) (e : Engine) : (s.setEng e).agenda = s.agenda := rfl
@[simp] theorem State.setEng_readLog (s : State) (e : Engine) : (s.setEng e).readLog = s.readLog := rfl
@[simp] theorem State.setEng_draws (s : State) (e : Engine) : (s.setEng e).draws = s.draws := rfl

@[simp] theorem State.setMem_eq (s : State) (m : Memory) : (s.setMem m).eq = s.eq := rfl
@[simp] theorem State.setMem_err (s : State) (m : Memory) : (s.setMem m).err = s.err := rfl
@[simp] theorem State.setMem_wbusy (s : State) (m : Memory) : (s.setMem m).wbusy = s.wbusy := rfl
@[simp] theorem State.setMem_src (s : State) (m : Memory) : (s.setMem m).src = s.src := rfl
@[simp] theorem State.setMem_len (s : State) (m : Memory) : (s.setMem m).len = s.len := rfl
@[simp] theorem State.setMem_seed (s : State) (m : Memory) : (s.setMem m).seed = s.seed := rfl
@[simp] theorem State.setMem_data (s : State) (m : Memory) : (s.setMem m).data = s.data := rfl
@[simp] theorem State.setMem_cont (s : State) (m : Memory) : (s.setMem m).cont = s.cont := rfl
@[simp] theorem State.setMem_eng (s : State) (m : Memory) : (s.setMem m).eng = s.eng := rfl
@[simp] theorem State.setMem_mem (s : State) (m : Memory) : (s.setMem m).mem = m := rfl
@[simp] theorem State.setMem_unordered (s : State) (m : Memory) : (s.setMem m).unordered = s.unordered := rfl
@[simp] theorem State.setMem_platform (s : State) (m : Memory) : (s.setMem m).platform = s.platform := rfl
@[simp] theorem State.setMem_agenda (s : State) (m : Memory) : (s.setMem m).agenda = s.agenda := rfl
@[simp] theorem State.setMem_readLog (s : State) (m : Memory) : (s.setMem m).readLog = s.readLog := rfl
@[simp] theorem State.setMem_draws (s : State) (m : Memory) : (s.setMem m).draws = s.draws := rfl

@[simp] theorem State.setUnordered_eq (s : State) (l : List Nat) : (s.setUnordered l).eq = s.eq := rfl
@[simp] theorem State.setUnordered_err (s : State) (l : List Nat) : (s.setUnordered l).err = s.err := rfl
@[simp] theorem State.setUnordered_wbusy (s : State) (l : List Nat) : (s.setUnordered l).wbusy = s.wbusy := rfl
@[simp] theorem State.setUnordered_src (s : State) (l : List Nat) : (s.setUnordered l).src = s.src := rfl
@[simp] theorem State.setUnordered_len (s : State) (l : List Nat) : (s.setUnordered l).len = s.len := rfl
@[simp] theorem State.setUnordered_seed (s : State) (l : List Nat) : (s.setUnordered l).seed = s.seed := rfl
@[simp] theorem State.setUnordered_data (s : State) (l : List Nat) : (s.setUnordered l).data = s.data := rfl
@[simp] theorem State.setUnordered_cont (s : State) (l : List Nat) : (s.setUnordered l).cont = s.cont := rfl
@[simp] theorem State.setUnordered_eng (s : State) (l : List Nat) : (s.setUnordered l).eng = s.eng := rfl
@[simp] theorem State.setUnordered_mem (s : State) (l : List Nat) : (s.setUnordered l).mem = s.mem := rfl
@[simp] theorem State.setUnordered_unordered (s : State) (l : List Nat) : (s.setUnordered l).unordered = l := rfl
@[simp] theorem State.setUnordered_platform (s : State) (l : List Nat) : (s.setUnordered l).platform = s.platform := rfl
@[simp] theorem State.setUnordered_agenda (s : State) (l : List Nat) : (s.setUnordered l).agenda = s.agenda := rfl
@[simp] theorem State.setUnordered_readLog (s : State) (l : List Nat) : (s.setUnordered l).readLog = s.readLog := rfl
@[simp] theorem State.setUnordered_draws (s : State) (l : List Nat) : (s.setUnordered l).draws = s.draws := rfl

@[simp] theorem State.setAgenda_eq (s : State) (l : List Turn) : (s.setAgenda l).eq = s.eq := rfl
@[simp] theorem State.setAgenda_err (s : State) (l : List Turn) : (s.setAgenda l).err = s.err := rfl
@[simp] theorem State.setAgenda_wbusy (s : State) (l : List Turn) : (s.setAgenda l).wbusy = s.wbusy := rfl
@[simp] theorem State.setAgenda_src (s : State) (l : List Turn) : (s.setAgenda l).src = s.src := rfl
@[simp] theorem State.setAgenda_len (s : State) (l : List Turn) : (s.setAgenda l).len = s.len := rfl
@[simp] theorem State.setAgenda_seed (s : State) (l : List Turn) : (s.setAgenda l).seed = s.seed := rfl
@[simp] theorem State.setAgenda_data (s : State) (l : List Turn) : (s.setAgenda l).data = s.data := rfl
@[simp] theorem State.setAgenda_cont (s : State) (l : List Turn) : (s.setAgenda l).cont = s.cont := rfl
@[simp] theorem State.setAgenda_eng (s : State) (l : List Turn) : (s.setAgenda l).eng = s.eng := rfl
@[simp] theorem State.setAgenda_mem (s : State) (l : List Turn) : (s.setAgenda l).mem = s.mem := rfl
@[simp] theorem State.setAgenda_unordered (s : State) (l : List Turn) : (s.setAgenda l).unordered = s.unordered := rfl
@[simp] theorem State.setAgenda_platform (s : State) (l : List Turn) : (s.setAgenda l).platform = s.platform := rfl
@[simp] theorem State.setAgenda_agenda (s : State) (l : List Turn) : (s.setAgenda l).agenda = l := rfl
@[simp] theorem State.setAgenda_readLog (s : State) (l : List Turn) : (s.setAgenda l).readLog = s.readLog := rfl
@[simp] theorem State.setAgenda_draws (s : State) (l : List Turn) : (s.setAgenda l).draws = s.draws := rfl

@[simp] theorem State.logRead_eq (s : State) (v : Word) : (s.logRead v).eq = s.eq := rfl
@[simp] theorem State.logRead_err (s : State) (v : Word) : (s.logRead v).err = s.err := rfl
@[simp] theorem State.logRead_wbusy (s : State) (v : Word) : (s.logRead v).wbusy = s.wbusy := rfl
@[simp] theorem State.logRead_src (s : State) (v : Word) : (s.logRead v).src = s.src := rfl
@[simp] theorem State.logRead_len (s : State) (v : Word) : (s.logRead v).len = s.len := rfl
@[simp] theorem State.logRead_seed (s : State) (v : Word) : (s.logRead v).seed = s.seed := rfl
@[simp] theorem State.logRead_data (s : State) (v : Word) : (s.logRead v).data = s.data := rfl
@[simp] theorem State.logRead_cont (s : State) (v : Word) : (s.logRead v).cont = s.cont := rfl
@[simp] theorem State.logRead_eng (s : State) (v : Word) : (s.logRead v).eng = s.eng := rfl
@[simp] theorem State.logRead_mem (s : State) (v : Word) : (s.logRead v).mem = s.mem := rfl
@[simp] theorem State.logRead_unordered (s : State) (v : Word) : (s.logRead v).unordered = s.unordered := rfl
@[simp] theorem State.logRead_platform (s : State) (v : Word) : (s.logRead v).platform = s.platform := rfl
@[simp] theorem State.logRead_agenda (s : State) (v : Word) : (s.logRead v).agenda = s.agenda := rfl
@[simp] theorem State.logRead_readLog (s : State) (v : Word) : (s.logRead v).readLog = s.readLog ++ [v] := rfl
@[simp] theorem State.logRead_draws (s : State) (v : Word) : (s.logRead v).draws = s.draws := rfl

@[simp] theorem State.addDraws_eq (s : State) (n : Nat) : (s.addDraws n).eq = s.eq := rfl
@[simp] theorem State.addDraws_err (s : State) (n : Nat) : (s.addDraws n).err = s.err := rfl
@[simp] theorem State.addDraws_wbusy (s : State) (n : Nat) : (s.addDraws n).wbusy = s.wbusy := rfl
@[simp] theorem State.addDraws_src (s : State) (n : Nat) : (s.addDraws n).src = s.src := rfl
@[simp] theorem State.addDraws_len (s : State) (n : Nat) : (s.addDraws n).len = s.len := rfl
@[simp] theorem State.addDraws_seed (s : State) (n : Nat) : (s.addDraws n).seed = s.seed := rfl
@[simp] theorem State.addDraws_data (s : State) (n : Nat) : (s.addDraws n).data = s.data := rfl
@[simp] theorem State.addDraws_cont (s : State) (n : Nat) : (s.addDraws n).cont = s.cont := rfl
@[simp] theorem State.addDraws_eng (s : State) (n : Nat) : (s.addDraws n).eng = s.eng := rfl
@[simp] theorem State.addDraws_mem (s : State) (n : Nat) : (s.addDraws n).mem = s.mem := rfl
@[simp] theorem State.addDraws_unordered (s : State) (n : Nat) : (s.addDraws n).unordered = s.unordered := rfl
@[simp] theorem State.addDraws_platform (s : State) (n : Nat) : (s.addDraws n).platform = s.platform := rfl
@[simp] theorem State.addDraws_agenda (s : State) (n : Nat) : (s.addDraws n).agenda = s.agenda := rfl
@[simp] theorem State.addDraws_readLog (s : State) (n : Nat) : (s.addDraws n).readLog = s.readLog := rfl
@[simp] theorem State.addDraws_draws (s : State) (n : Nat) : (s.addDraws n).draws = s.draws + n := rfl

@[simp] theorem State.raise_eq (s : State) (e : ErrCode) : (s.raise e).eq = s.eq := rfl
@[simp] theorem State.raise_err (s : State) (e : ErrCode) : (s.raise e).err = e := rfl
@[simp] theorem State.raise_wbusy (s : State) (e : ErrCode) : (s.raise e).wbusy = s.wbusy := rfl
@[simp] theorem State.raise_src (s : State) (e : ErrCode) : (s.raise e).src = s.src := rfl
@[simp] theorem State.raise_len (s : State) (e : ErrCode) : (s.raise e).len = s.len := rfl
@[simp] theorem State.raise_seed (s : State) (e : ErrCode) : (s.raise e).seed = s.seed := rfl
@[simp] theorem State.raise_data (s : State) (e : ErrCode) : (s.raise e).data = s.data := rfl
@[simp] theorem State.raise_cont (s : State) (e : ErrCode) : (s.raise e).cont = s.cont := rfl
@[simp] theorem State.raise_eng (s : State) (e : ErrCode) : (s.raise e).eng = s.eng := rfl
@[simp] theorem State.raise_mem (s : State) (e : ErrCode) : (s.raise e).mem = s.mem := rfl
@[simp] theorem State.raise_unordered (s : State) (e : ErrCode) : (s.raise e).unordered = s.unordered := rfl
@[simp] theorem State.raise_platform (s : State) (e : ErrCode) : (s.raise e).platform = s.platform := rfl
@[simp] theorem State.raise_agenda (s : State) (e : ErrCode) : (s.raise e).agenda = s.agenda := rfl
@[simp] theorem State.raise_readLog (s : State) (e : ErrCode) : (s.raise e).readLog = s.readLog := rfl
@[simp] theorem State.raise_draws (s : State) (e : ErrCode) : (s.raise e).draws = s.draws := rfl

@[simp] theorem State.accept_eq (s : State) : (s.accept).eq = s.eq := rfl
@[simp] theorem State.accept_err (s : State) : (s.accept).err = .ok := rfl
@[simp] theorem State.accept_wbusy (s : State) : (s.accept).wbusy = s.wbusy := rfl
@[simp] theorem State.accept_src (s : State) : (s.accept).src = s.src := rfl
@[simp] theorem State.accept_len (s : State) : (s.accept).len = s.len := rfl
@[simp] theorem State.accept_seed (s : State) : (s.accept).seed = s.seed := rfl
@[simp] theorem State.accept_data (s : State) : (s.accept).data = s.data := rfl
@[simp] theorem State.accept_cont (s : State) : (s.accept).cont = s.cont := rfl
@[simp] theorem State.accept_eng (s : State) : (s.accept).eng = s.eng := rfl
@[simp] theorem State.accept_mem (s : State) : (s.accept).mem = s.mem := rfl
@[simp] theorem State.accept_unordered (s : State) : (s.accept).unordered = s.unordered := rfl
@[simp] theorem State.accept_platform (s : State) : (s.accept).platform = s.platform := rfl
@[simp] theorem State.accept_agenda (s : State) : (s.accept).agenda = s.agenda := rfl
@[simp] theorem State.accept_readLog (s : State) : (s.accept).readLog = s.readLog := rfl
@[simp] theorem State.accept_draws (s : State) : (s.accept).draws = s.draws := rfl

@[simp] theorem State.endRun_eq (s : State) : s.endRun.eq = s.eq := rfl
@[simp] theorem State.endRun_err (s : State) : s.endRun.err = s.err := rfl
@[simp] theorem State.endRun_wbusy (s : State) : s.endRun.wbusy = s.wbusy := rfl
@[simp] theorem State.endRun_src (s : State) : s.endRun.src = s.src := rfl
@[simp] theorem State.endRun_len (s : State) : s.endRun.len = s.len := rfl
@[simp] theorem State.endRun_seed (s : State) : s.endRun.seed = s.seed := rfl
@[simp] theorem State.endRun_data (s : State) : s.endRun.data = s.data := rfl
@[simp] theorem State.endRun_cont (s : State) : s.endRun.cont = s.cont := rfl
@[simp] theorem State.endRun_mem (s : State) : s.endRun.mem = s.mem := rfl
@[simp] theorem State.endRun_unordered (s : State) : s.endRun.unordered = s.unordered := rfl
@[simp] theorem State.endRun_platform (s : State) : s.endRun.platform = s.platform := rfl
@[simp] theorem State.endRun_agenda (s : State) : s.endRun.agenda = s.agenda := rfl
@[simp] theorem State.endRun_readLog (s : State) : s.endRun.readLog = s.readLog := rfl
@[simp] theorem State.endRun_eng (s : State) : s.endRun.eng = freeEngine s.draws := rfl
@[simp] theorem State.endRun_draws (s : State) : s.endRun.draws = s.draws + 6 := rfl

@[simp] theorem State.abort_eq (s : State) : s.abort.eq = s.eq := rfl
@[simp] theorem State.abort_err (s : State) : s.abort.err = .bus := rfl
@[simp] theorem State.abort_wbusy (s : State) : s.abort.wbusy = s.wbusy := rfl
@[simp] theorem State.abort_src (s : State) : s.abort.src = s.src := rfl
@[simp] theorem State.abort_len (s : State) : s.abort.len = s.len := rfl
@[simp] theorem State.abort_seed (s : State) : s.abort.seed = s.seed := rfl
@[simp] theorem State.abort_data (s : State) : s.abort.data = s.data := rfl
@[simp] theorem State.abort_cont (s : State) : s.abort.cont = s.cont := rfl
@[simp] theorem State.abort_eng (s : State) : s.abort.eng = freeEngine s.draws := rfl
@[simp] theorem State.abort_mem (s : State) : s.abort.mem = s.mem := rfl
@[simp] theorem State.abort_unordered (s : State) : s.abort.unordered = s.unordered := rfl
@[simp] theorem State.abort_platform (s : State) : s.abort.platform = s.platform := rfl
@[simp] theorem State.abort_agenda (s : State) : s.abort.agenda = s.agenda := rfl
@[simp] theorem State.abort_readLog (s : State) : s.abort.readLog = s.readLog := rfl
@[simp] theorem State.abort_draws (s : State) : s.abort.draws = s.draws + 6 := rfl

/-! ### Files of four -/

@[simp] theorem Quad.get_set_same {α : Type} (q : Quad α) (i : Fin 4) (a : α) : (q.set i a).get i = a := by
  match i with
  | 0 => rfl
  | 1 => rfl
  | 2 => rfl
  | 3 => rfl

theorem Quad.get_set_ne {α : Type} (q : Quad α) {i j : Fin 4} (a : α) (h : j ≠ i) : (q.set i a).get j = q.get j := by
  match i, j with
  | 0, 0 => exact absurd rfl h
  | 0, 1 => rfl
  | 0, 2 => rfl
  | 0, 3 => rfl
  | 1, 0 => rfl
  | 1, 1 => exact absurd rfl h
  | 1, 2 => rfl
  | 1, 3 => rfl
  | 2, 0 => rfl
  | 2, 1 => rfl
  | 2, 2 => exact absurd rfl h
  | 2, 3 => rfl
  | 3, 0 => rfl
  | 3, 1 => rfl
  | 3, 2 => rfl
  | 3, 3 => exact absurd rfl h

/-- A file of four is its entries. -/
theorem Quad.ext_get {α : Type} {p q : Quad α} (h : ∀ i, p.get i = q.get i) : p = q := by
  have h0 : p.x0 = q.x0 := h 0
  have h1 : p.x1 = q.x1 := h 1
  have h2 : p.x2 = q.x2 := h 2
  have h3 : p.x3 = q.x3 := h 3
  cases p; cases q; simp_all

/-! ### BUSY, PHASE and the end of a run (10_state.md R28 to R30) -/

/-- BUSY reads 1 exactly when PHASE is not IDLE. -/
@[simp] theorem State.busy_iff (s : State) : s.busy = true ↔ s.eng.phase ≠ .idle := by simp [State.busy]

@[simp] theorem State.busy_false_iff (s : State) : s.busy = false ↔ s.eng.phase = .idle := by simp [State.busy]

@[simp] theorem freeEngine_phase (n : Nat) : (freeEngine n).phase = .idle := rfl

@[simp] theorem freeEngine_raced (n : Nat) : (freeEngine n).raced = [] := rfl

/-- The counters stay in their ranges (R29). -/
theorem freeEngine_ranges (n : Nat) :
    (freeEngine n).blk ≤ (freeEngine n).op.nb ∧ (freeEngine n).rcnt ≤ 16 ∧ (freeEngine n).wcnt ≤ 5 :=
  ⟨Nat.le_of_lt_succ (Nat.mod_lt _ (Nat.succ_pos _)), Nat.le_of_lt_succ (Nat.mod_lt _ (by decide)),
    Nat.le_of_lt_succ (Nat.mod_lt _ (by decide))⟩

end Sys2Proof.Machine
end

