-- ==== Sys2Proof/Laws/Ops.lean ====
section
/-! SUPPORT. What the shared operations can do: the engine's read (20_memory.md R38, R44), the merge and the rotation
(41_aes_datapath.md), the micro-steps (42_hash_engine.md). -/

namespace Sys2Proof.Machine

/-! ### The engine's read -/

/-- Everything MemRead can answer (R38). -/
theorem memRead_cases (s : State) (addr n : Nat) :
    (n = 0 ∧ memRead s addr n = some []) ∨
    (n ≠ 0 ∧ (2 ^ 64 < addr + n ∨ s.platform.admits addr n = false) ∧ memRead s addr n = none) ∨
    (n ≠ 0 ∧ addr + n ≤ 2 ^ 64 ∧ s.platform.admits addr n = true ∧
      memRead s addr n = some ((List.range n).map (oracleByte s addr))) := by
  unfold memRead
  by_cases h0 : n = 0
  · simp [h0]
  · by_cases hw : 2 ^ 64 < addr + n
    · exact .inr (.inl ⟨h0, .inl hw, by rw [if_neg h0, if_pos hw]⟩)
    · cases ha : s.platform.admits addr n with
      | true => exact .inr (.inr ⟨h0, by omega, rfl, by rw [if_neg h0, if_neg hw, if_pos rfl]⟩)
      | false => exact .inr (.inl ⟨h0, .inr rfl, by rw [if_neg h0, if_neg hw, if_neg (by decide)]⟩)

/-- An admitted request answers the oracle's bytes. -/
theorem memRead_admitted {s : State} {addr n : Nat} (h0 : n ≠ 0) (hw : addr + n ≤ 2 ^ 64)
    (ha : s.platform.admits addr n = true) :
    memRead s addr n = some ((List.range n).map (oracleByte s addr)) := by
  rcases memRead_cases s addr n with h | h | h
  · exact absurd h.1 h0
  · rcases h.2.1 with h' | h'
    · omega
    · simp [ha] at h'
  · exact h.2.2.2

/-- A refused request is BusError. -/
theorem memRead_refused {s : State} {addr n : Nat} (h0 : n ≠ 0)
    (h : 2 ^ 64 < addr + n ∨ s.platform.admits addr n = false) : memRead s addr n = none := by
  rcases memRead_cases s addr n with h' | h' | h'
  · exact absurd h'.1 h0
  · exact h'.2.2
  · rcases h with h | h
    · omega
    · rw [h'.2.2.1] at h; cases h

/-- With no turn of another agent to come, no store races the run. -/
@[simp] theorem storesWhileBusy_nil (n : Nat) : storesWhileBusy n [] = [] := by
  cases n <;> rfl

/-! ### Merge and rotation -/

/-- The lanes a merge computes, for every W. -/
theorem mergeW_eq_merge (w : ProcWidth) (a b : Val) : mergeW w a b = merge a b := by
  cases w <;> rfl

/-- Lane L of a merge (R83). -/
theorem lane_merge (a b : Val) {L : Nat} (h : L < 4) : lane (merge a b) L = aesdec (lane a L) (lane b L) := by
  rw [merge, lane_ofDigits _ h]
  simp [List.getD, h]

/-- Lane L of a rotation (R85). -/
theorem lane_rot (b : Val) {L : Nat} (h : L < 4) : lane (rot b) L = lane b ((L + 1) % 4) := by
  rw [rot, lane_ofDigits _ h]
  match L, h with
  | 0, _ => rfl
  | 1, _ => rfl
  | 2, _ => rfl
  | 3, _ => rfl

/-- Four rotations are the identity (R87). -/
theorem rot_four (b : Val) : rot (rot (rot (rot b))) = b := by
  apply val_ext_lane
  intro L hL
  rw [lane_rot _ hL, lane_rot _ (by omega), lane_rot _ (by omega), lane_rot _ (by omega)]
  congr 1
  omega

/-- Byte i of a tabulated lane. -/
theorem byteAt_tabulateLane (f : Nat → Byte) {i : Nat} (h : i < 16) : byteAt (tabulateLane f) i = f i := by
  unfold byteAt tabulateLane
  rw [extract_ofDigits _ _ (by omega)]
  simp [List.getD, h]

/-! ### Sub-blocks and the scratch buffer -/

/-- Byte j of sub-block k is byte 64 k + j of the block (R92). -/
theorem byteAt_subBlock (d : List Byte) (k : Nat) {j : Nat} (h : j < 64) :
    byteAt (subBlock d k) j = d.getD (64 * k + j) 0x00#8 := by
  unfold byteAt subBlock
  rw [extract_ofDigits _ _ (by omega)]
  simp [List.getD, h]

/-- A sub-block from its bytes. -/
theorem subBlock_eq_tabulate (d : List Byte) (k : Nat) :
    subBlock d k = tabulate fun j => d.getD (64 * k + j) 0x00#8 :=
  val_ext fun _ h => by rw [byteAt_subBlock _ _ h, byteAt_tabulate _ h]

/-- Byte j of the scratch buffer (R96). -/
theorem scratch_getD (iv : Val) (tail : List Byte) {j : Nat} (h : j < 256) :
    (scratch iv tail).getD j 0x00#8 = if j < tail.length then tail.getD j 0x00#8 else byteAt iv (j % 64) := by
  unfold scratch
  by_cases hj : j < tail.length
  · simp [List.getD, hj, List.getElem?_append_left]
  · have h2 : tail.length ≤ j := by omega
    have h3 : tail.length + (j - tail.length) = j := by omega
    simp [List.getD, hj, List.getElem?_append_right h2, h3, h]

/-! ### Micro-steps -/

@[simp] theorem engineStep_idle {s : State} (hp : s.eng.phase = .idle) : engineStep s = s := by simp [engineStep, hp]

theorem engineStep_absorb {s : State} (hp : s.eng.phase = .absorb) : engineStep s = absorbStep s := by
  simp [engineStep, hp]

theorem engineStep_tail {s : State} (hp : s.eng.phase = .tail) : engineStep s = tailStep s := by
  simp [engineStep, hp]

theorem engineStep_rotate {s : State} (hp : s.eng.phase = .rotate) : engineStep s = rotateStep s := by
  simp [engineStep, hp]

theorem engineStep_whiten {s : State} (hp : s.eng.phase = .whiten) : engineStep s = whitenStep s := by
  simp [engineStep, hp]

theorem engineStep_complete {s : State} (hp : s.eng.phase = .complete) : engineStep s = completeStep s := by
  simp [engineStep, hp]

/-- Everything an engine step can do to the state: nothing when idle; go on with the same operands and the same raced
bytes; abort at a refused read; complete. No step touches a register the host writes, memory, or the parameters. -/
inductive EngineCase (s : State) : State → Prop where
  | idle (hp : s.eng.phase = .idle) : EngineCase s s
  | goesOn (e : Engine) (n : Nat) (hb : s.eng.phase ≠ .idle) (he : e.phase ≠ .idle) (hop : e.op = s.eng.op)
      (hiv : e.iv = s.eng.iv) (hraced : e.raced = s.eng.raced) : EngineCase s ((s.addDraws n).setEng e)
  | aborts (addr n : Nat)
      (hp : s.eng.phase = .absorb ∧ addr = s.eng.op.src.toNat + 256 * s.eng.blk ∧ n = 256 ∨
        s.eng.phase = .tail ∧ addr = s.eng.op.src.toNat + 256 * s.eng.op.nb ∧ n = s.eng.op.tailLen)
      (hr : memRead s addr n = none) : EngineCase s s.abort
  | completes (hp : s.eng.phase = .complete) : EngineCase s (completeStep s)

/-- A run that absorbs goes on. -/
theorem phaseAfterAbsorb_ne_idle (o : Op) (blk : Nat) : phaseAfterAbsorb o blk ≠ .idle := by
  unfold phaseAfterAbsorb
  split
  · split <;> decide
  · decide

/-- The inversion of an engine step. -/
theorem engineStep_cases (s : State) : EngineCase s (engineStep s) := by
  cases hp : s.eng.phase with
  | idle => rw [engineStep_idle hp]; exact .idle hp
  | absorb =>
    rw [engineStep_absorb hp, absorbStep]
    split
    · next h => exact .aborts _ _ (.inl ⟨hp, rfl, rfl⟩) h
    · exact .goesOn _ 256 (by simp [hp]) (phaseAfterAbsorb_ne_idle _ _) rfl rfl rfl
  | tail =>
    rw [engineStep_tail hp, tailStep]
    split
    · next h => exact .aborts _ _ (.inr ⟨hp, rfl, rfl⟩) h
    · exact .goesOn _ _ (by simp [hp]) (by simp) rfl rfl rfl
  | rotate =>
    rw [engineStep_rotate hp]
    exact .goesOn _ 0 (by simp [hp]) (by dsimp only; split <;> decide) rfl rfl rfl
  | whiten =>
    rw [engineStep_whiten hp]
    exact .goesOn _ 0 (by simp [hp]) (by dsimp only; split <;> decide) rfl rfl rfl
  | complete => rw [engineStep_complete hp]; exact .completes hp

end Sys2Proof.Machine
end

