-- ==== Sys2Proof/Laws/PerInstr.lean ====
section
/-! SUPPORT. Statements made once per instruction. `EncodeMatchesRow`: the word of a well-formed command matches its row of
the opcode table (30_encoding.md R53). -/

namespace Sys2Proof.Laws.EncodeMatchesRow

/-- The encoding of this instruction matches its row. -/
def Statement (i : Instr) : Prop := i.wellFormed = true → i.row.matchesWord (encode i) = true

theorem nop : Statement .nop := by intro _; decide

theorem hash (d : Fin 4) (w : ProcWidth) (r : ViewSel) (aligned : Bool) : Statement (.hash d w r aligned) := by
  intro h
  cases r with
  | tag => simp [Instr.wellFormed] at h
  | of a =>
    clear h
    revert d
    cases a <;> cases w <;> cases aligned <;> decide

theorem czero (d : Fin 4) (a : ViewSel) : Statement (.czero d a) := by
  intro _
  revert d
  cases a with
  | tag => decide
  | of a => cases a <;> decide

theorem ccopy (d src : Fin 4) (a : ViewSel) : Statement (.ccopy d src a) := by
  intro _
  revert d src
  cases a with
  | tag => decide
  | of a => cases a <;> decide

theorem cget (src : Fin 4) (a : ViewSel) (idx : Nat) : Statement (.cget src a idx) := by
  intro h
  have hi : idx < 16 := by simpa [Instr.wellFormed] using h
  clear h
  revert src
  cases a with
  | tag => interval_cases idx <;> decide
  | of a => cases a <;> interval_cases idx <;> decide

theorem cput (d : Fin 4) (a : ViewSel) (idx : Nat) : Statement (.cput d a idx) := by
  intro h
  have hi : idx < 16 := by simpa [Instr.wellFormed] using h
  clear h
  revert d
  cases a with
  | tag => interval_cases idx <;> decide
  | of a => cases a <;> interval_cases idx <;> decide

theorem ceq (x y : Fin 4) : Statement (.ceq x y) := by
  intro _
  revert x y
  decide

end Sys2Proof.Laws.EncodeMatchesRow
end

