-- ==== Sys2Proof/Laws/Step.lean ====
section
/-! SUPPORT. What an access, a command and a step can do, said once. -/

namespace Sys2Proof.Machine

/-! ### The register window (10_state.md R13, 43_host_interface.md R106) -/

/-- The slot at an offset is the one with that offset. -/
theorem regAt_eq_some {offset : Nat} {r : Reg} : regAt offset = some r ↔ r.offset = offset := by
  constructor
  · intro h
    unfold regAt at h
    split at h <;> first | (injection h with h; subst h; rfl) | cases h
  · rintro rfl
    cases r with
    | data k =>
      match k with
      | 0 => rfl
      | 1 => rfl
      | 2 => rfl
      | 3 => rfl
      | 4 => rfl
      | 5 => rfl
      | 6 => rfl
      | 7 => rfl
    | _ => rfl

/-- An offset has a slot exactly when it is a multiple of 8 in 0x00..0x78. -/
theorem regAt_isSome {offset : Nat} : (regAt offset).isSome = true ↔ offset % 8 = 0 ∧ offset ≤ 0x78 := by
  constructor
  · intro h
    obtain ⟨r, hr⟩ := Option.isSome_iff_exists.1 h
    have ho := regAt_eq_some.1 hr
    cases r <;> simp [Reg.offset] at ho <;> omega
  · rintro ⟨h8, hle⟩
    obtain ⟨k, rfl⟩ : ∃ k, offset = 8 * k := ⟨offset / 8, by omega⟩
    have hk : k < 16 := by omega
    interval_cases k <;> rfl

/-- Every slot is inside the window. -/
theorem Reg.offset_le (r : Reg) : r.offset ≤ 0x78 := by
  have h := regAt_isSome (offset := r.offset)
  have h1 : regAt r.offset = some r := regAt_eq_some.2 rfl
  rw [h1] at h
  exact (h.1 rfl).2

/-- The admitted accesses: 64-bit, at a slot. -/
theorem admittedReg_eq_some {base addr size : Nat} {r : Reg} :
    admittedReg base addr size = some r ↔ size = 8 ∧ addr = base + r.offset := by
  unfold admittedReg
  constructor
  · intro h
    split at h
    · next hc => have := regAt_eq_some.1 h; exact ⟨hc.1, by omega⟩
    · cases h
  · rintro ⟨rfl, rfl⟩
    rw [if_pos ⟨rfl, Nat.le_add_right _ _⟩, Nat.add_sub_cancel_left]
    exact regAt_eq_some.2 rfl

@[simp] theorem admittedReg_slot (base : Nat) (r : Reg) : admittedReg base (base + r.offset) 8 = some r :=
  admittedReg_eq_some.2 ⟨rfl, rfl⟩

@[simp] theorem touchesWindow_slot (base : Nat) (r : Reg) : touchesWindow base (base + r.offset) 8 = true := by
  have := r.offset_le
  simp only [touchesWindow, decide_eq_true_eq]
  omega

/-- A host read of a slot. -/
theorem hostAccess_read_slot (s : State) (r : Reg) :
    hostAccess (.read (s.platform.base + r.offset) 8) s = .next (s.logRead (readReg r s)) := by
  simp [hostAccess]

/-- A host write of a slot. -/
theorem hostAccess_write_slot (s : State) (r : Reg) (v : Word) :
    hostAccess (.write (s.platform.base + r.offset) 8 v) s = writeReg r v s := by
  simp [hostAccess]

/-! ### Commands -/

/-- Everything a command can do: fail with an error code alone, or clear ERR and do one of five things. -/
inductive ExecCase (s : State) : Instr → State → Prop where
  | fails (i : Instr) (e : ErrCode) : ExecCase s i (s.raise e)
  | nop : ExecCase s .nop s.accept
  | hash (d : Fin 4) (w : ProcWidth) (a : ViewWidth) (aln : Bool)
      (hw : s.platform.supports w = true) (hal : misaligned aln w s.src = false)
      (hwrap : rangeWraps s.src s.len = false) :
      ExecCase s (.hash d w (.of a) aln) (s.accept.setEng
        (startEngine { src := s.src, len := s.len, seed := s.seed, ca := d, R := a, W := w } s.unordered))
  | czero (d : Fin 4) (a : ViewSel) (k : Container) : ExecCase s (.czero d a) (s.accept.setCont d k)
  | ccopy (d src : Fin 4) (a : ViewSel) (k : Container) : ExecCase s (.ccopy d src a) (s.accept.setCont d k)
  | cget (src : Fin 4) (a : ViewSel) (idx : Nat) (v : Val) : ExecCase s (.cget src a idx) (s.accept.setData v)
  | cput (d : Fin 4) (a : ViewSel) (idx : Nat) (k : Container) : ExecCase s (.cput d a idx) (s.accept.setCont d k)
  | ceq (x y : Fin 4) (b : Bool) : ExecCase s (.ceq x y) (s.accept.setEq b)

/-- Every command answers a next state, one of those. -/
theorem exec_cases (i : Instr) (s : State) : ∃ t, exec i s = .next t ∧ ExecCase s i t := by
  cases i with
  | nop => exact ⟨_, rfl, .nop⟩
  | hash d w r aln =>
    cases r with
    | tag => exact ⟨_, rfl, .fails _ .illegal⟩
    | of a =>
      simp only [exec, execHash]
      cases hw : s.platform.supports w with
      | false => exact ⟨_, rfl, .fails _ .illegal⟩
      | true =>
        cases hal : misaligned aln w s.src with
        | true => exact ⟨_, rfl, .fails _ .align⟩
        | false =>
          cases hwr : rangeWraps s.src s.len with
          | true => exact ⟨_, rfl, .fails _ .bus⟩
          | false => exact ⟨_, rfl, .hash d w a aln hw hal hwr⟩
  | czero d a => exact ⟨_, rfl, .czero d a _⟩
  | ccopy d src a => exact ⟨_, rfl, .ccopy d src a _⟩
  | cget src a idx =>
    simp only [exec, execCget]
    split
    · exact ⟨_, rfl, .cget src a idx _⟩
    · exact ⟨_, rfl, .fails _ .range⟩
  | cput d a idx =>
    simp only [exec, execCput]
    split
    · exact ⟨_, rfl, .cput d a idx _⟩
    · exact ⟨_, rfl, .fails _ .range⟩
  | ceq x y => exact ⟨_, rfl, .ceq x y _⟩

/-- The inversion of a command. -/
theorem exec_next {i : Instr} {s t : State} (h : exec i s = .next t) : ExecCase s i t := by
  obtain ⟨t', h', hc⟩ := exec_cases i s
  rw [h'] at h
  injection h with h
  exact h ▸ hc

/-- Everything a host write of a slot can do. -/
inductive WriteCase (s : State) (v : Word) : Reg → State → Prop where
  | dropped (h : s.busy = true) : WriteCase s v .cmd (s.setWbusy true)
  | illegal (why : IllegalCause) (h : s.eng.phase = .idle) (hd : decode v = .illegal why) :
      WriteCase s v .cmd (s.accept.raise .illegal)
  | command (i : Instr) (t : State) (h : s.eng.phase = .idle) (hd : decode v = .command i) (he : exec i s.accept = .next t) :
      WriteCase s v .cmd t
  | status : WriteCase s v .status (s.setWbusy (wbusyAfterWrite v s.wbusy))
  | src : WriteCase s v .src (s.setSrc v)
  | len : WriteCase s v .len (s.setLen v)
  | seed : WriteCase s v .seed (s.setSeed v)
  | ignored (r : Reg) (h : r = .cap ∨ r = .reserved30 ∨ r = .reserved38) : WriteCase s v r s
  | data (k : Fin 8) : WriteCase s v (.data k) (s.setData (setDataWord s.data k.val v))

/-- Every host write of a slot answers a next state, one of those. -/
theorem writeReg_cases (r : Reg) (v : Word) (s : State) : ∃ t, writeReg r v s = .next t ∧ WriteCase s v r t := by
  cases r with
  | cmd =>
    simp only [writeReg, writeCmd]
    cases hb : s.busy with
    | true => exact ⟨_, rfl, .dropped hb⟩
    | false =>
      have hr := (State.busy_false_iff s).1 hb
      cases hd : decode v with
      | illegal why => exact ⟨_, rfl, .illegal why hr hd⟩
      | command i =>
        obtain ⟨t, ht, -⟩ := exec_cases i s.accept
        exact ⟨t, ht, .command i t hr hd ht⟩
  | status => exact ⟨_, rfl, .status⟩
  | src => exact ⟨_, rfl, .src⟩
  | len => exact ⟨_, rfl, .len⟩
  | seed => exact ⟨_, rfl, .seed⟩
  | cap => exact ⟨_, rfl, .ignored _ (.inl rfl)⟩
  | reserved30 => exact ⟨_, rfl, .ignored _ (.inr (.inl rfl))⟩
  | reserved38 => exact ⟨_, rfl, .ignored _ (.inr (.inr rfl))⟩
  | data k => exact ⟨_, rfl, .data k⟩

/-! ### Steps -/

@[simp] theorem State.setAgenda_self (s : State) : s.setAgenda s.agenda = s := rfl

/-- No command touches the parameters, the turns to come or memory. -/
theorem exec_keeps {i : Instr} {s t : State} (h : exec i s = .next t) :
    t.platform = s.platform ∧ t.agenda = s.agenda ∧ t.mem = s.mem := by
  cases exec_next h <;> refine ⟨?_, ?_, ?_⟩ <;> simp

/-- No host write of a slot touches them. -/
theorem writeCase_keeps {s t : State} {v : Word} {r : Reg} (h : WriteCase s v r t) :
    t.platform = s.platform ∧ t.agenda = s.agenda ∧ t.mem = s.mem := by
  cases h with
  | command i t hr hd he => simpa using exec_keeps he
  | _ => refine ⟨?_, ?_, ?_⟩ <;> simp

/-- Everything a step can do. -/
inductive StepCase (s : State) : State → Prop where
  | engine (rest : List Turn)
      (h : s.agenda = .engine :: rest ∨ (rest = s.agenda ∧ (rest = [] ∨ ∃ l, rest = .wait :: l ∧ s.busy = true))) :
      StepCase s (engineStep (s.setAgenda rest))
  | passes (x : Turn) (rest : List Turn) (h : s.agenda = x :: rest) : StepCase s (s.setAgenda rest)
  | reads (r : Reg) (rest : List Turn) (h : s.agenda = .host (.read (s.platform.base + r.offset) 8) :: rest) :
      StepCase s ((s.setAgenda rest).logRead (readReg r (s.setAgenda rest)))
  | writes (r : Reg) (v : Word) (rest : List Turn) (t : State)
      (h : s.agenda = .host (.write (s.platform.base + r.offset) 8 v) :: rest)
      (hw : WriteCase (s.setAgenda rest) v r t) : StepCase s t
  | stores (a : Word) (b : Byte) (rest : List Turn) (h : s.agenda = .store a b :: rest) :
      StepCase s (storeByte a b (s.setAgenda rest))
  | orders (rest : List Turn) (h : s.agenda = .order :: rest) : StepCase s (orderStores (s.setAgenda rest))
  | resets (rest : List Turn) (h : s.agenda = .reset :: rest) : StepCase s (resetBlock (s.setAgenda rest))

/-- The inversion of a step. -/
theorem step_cases {s t : State} (h : step s = .next t) : StepCase s t := by
  unfold step at h
  split at h
  · next ha =>
    injection h with h; subst h
    exact StepCase.engine s.agenda (.inr ⟨rfl, .inl ha⟩)
  · next rest ha => injection h with h; subst h; exact .engine rest (.inl ha)
  · next rest ha =>
    split at h
    · next hb =>
      injection h with h; subst h
      exact StepCase.engine s.agenda (.inr ⟨rfl, .inr ⟨rest, ha, hb⟩⟩)
    · injection h with h; subst h; exact .passes .wait rest ha
  · next a rest ha =>
    unfold hostAccess at h
    split at h
    · next addr size =>
      split at h
      · split at h
        · next r hr =>
          obtain ⟨rfl, rfl⟩ := admittedReg_eq_some.1 hr
          injection h with h; subst h
          exact .reads r rest ha
        · cases h
      · injection h with h; subst h; exact .passes _ rest ha
    · next addr size v =>
      split at h
      · split at h
        · next r hr =>
          obtain ⟨rfl, rfl⟩ := admittedReg_eq_some.1 hr
          obtain ⟨t', ht', hc⟩ := writeReg_cases r v (s.setAgenda rest)
          rw [ht'] at h
          injection h with h
          exact .writes r v rest t ha (h ▸ hc)
        · cases h
      · injection h with h; subst h; exact .passes _ rest ha
  · next a b rest ha => injection h with h; subst h; exact .stores a b rest ha
  · next rest ha => injection h with h; subst h; exact .orders rest ha
  · next rest ha => injection h with h; subst h; exact .resets rest ha

end Sys2Proof.Machine
end

