-- ==== Sys2Proof/Laws/Run.lean ====
section
/-! SUPPORT. Runs of several steps: a run from its first step, and the engine left to itself (70_reset_and_hazards.md
R139). -/

namespace Sys2Proof.Machine

/-- No step: the state itself. -/
theorem run_zero (s : State) : Sys2Proof.core.run 0 s = .next s := rfl

/-- A run goes on from its first step's next state. -/
theorem run_succ (n : Nat) {s t : State} (h : step s = .next t) :
    Sys2Proof.core.run (n + 1) s = Sys2Proof.core.run n t := by
  have h1 : Sys2Proof.core.step s = .next t := h
  simp only [Host.Core.run, h1]

/-- Two runs in a row. -/
theorem run_add (m n : Nat) {s t : State} (h : Sys2Proof.core.run m s = .next t) :
    Sys2Proof.core.run (m + n) s = Sys2Proof.core.run n t := by
  induction m generalizing s with
  | zero =>
    rw [run_zero] at h
    injection h with h
    rw [h, Nat.zero_add]
  | succ m ih =>
    cases hs : step s with
    | next u =>
      rw [run_succ m hs] at h
      rw [Nat.add_right_comm, run_succ (m + n) hs]
      exact ih h
    | fault r => cases r
    | refused r =>
      have h1 : Sys2Proof.core.step s = .refused r := hs
      simp only [Host.Core.run, h1] at h
      cases h

/-- With no turn to come, a step is the engine's. -/
theorem step_undisturbed {s : State} (h : s.agenda = []) : step s = .next (engineStep s) := by
  unfold step
  rw [h]

/-- What an engine step leaves alone. -/
theorem engineStep_frame (s : State) :
    (engineStep s).agenda = s.agenda ∧ (engineStep s).platform = s.platform ∧ (engineStep s).mem = s.mem ∧
    (engineStep s).unordered = s.unordered ∧ (engineStep s).readLog = s.readLog ∧ (engineStep s).src = s.src ∧
    (engineStep s).len = s.len ∧ (engineStep s).seed = s.seed ∧ (engineStep s).data = s.data ∧
    (engineStep s).eq = s.eq ∧ (engineStep s).wbusy = s.wbusy := by
  have h := engineStep_cases s
  generalize engineStep s = t at h
  cases h <;> exact ⟨rfl, rfl, rfl, rfl, rfl, rfl, rfl, rfl, rfl, rfl, rfl⟩

@[simp] theorem engineStep_agenda (s : State) : (engineStep s).agenda = s.agenda := (engineStep_frame s).1

@[simp] theorem engineStep_platform (s : State) : (engineStep s).platform = s.platform := (engineStep_frame s).2.1

/-- A step of a run in progress takes it one step nearer its end (42_hash_engine.md R105), aborts it with BUS, or is its
last step. -/
theorem engineStep_progress {s : State} (hi : s.eng.runInv s.platform) :
    ((engineStep s).eng.phase ≠ .idle ∧ (engineStep s).err = s.err ∧
        (engineStep s).eng.stepsLeft + 1 = s.eng.stepsLeft) ∨
    ((engineStep s).eng.phase = .idle ∧
        ((engineStep s).err = .bus ∨ (s.eng.stepsLeft = 1 ∧ (engineStep s).err = .ok))) := by
  have hr := hi.2.2.2.2
  cases hp : s.eng.phase with
  | idle => rw [hp] at hr; exact hr.elim
  | absorb =>
    simp only [hp] at hr
    rw [engineStep_absorb hp, absorbStep]
    split
    · right; exact ⟨rfl, .inl rfl⟩
    · left; refine ⟨phaseAfterAbsorb_ne_idle _ _, rfl, ?_⟩
      simp only [State.setEng_eng, Engine.stepsLeft, hp, phaseAfterAbsorb, Op.absorbSteps]
      by_cases h1 : s.eng.blk + 1 = s.eng.op.nb
      · by_cases h2 : s.eng.op.tailLen = 0
        · simp [h1, h2, hr.2.1]; omega
        · simp [h1, h2]; omega
      · by_cases h2 : s.eng.op.tailLen = 0 <;> simp [h1, h2] <;> omega
  | tail =>
    simp only [hp] at hr
    rw [engineStep_tail hp, tailStep]
    split
    · right; exact ⟨rfl, .inl rfl⟩
    · left; refine ⟨nofun, rfl, ?_⟩
      simp [Engine.stepsLeft, hp, hr.2.2.1]
  | rotate =>
    simp only [hp] at hr
    rw [engineStep_rotate hp]
    left; refine ⟨by show (if _ then _ else _) ≠ _; split <;> decide, rfl, ?_⟩
    simp only [Engine.stepsLeft, hp, rotateStep, State.setEng_eng]
    by_cases h1 : s.eng.rcnt + 1 = 16
    · simp [h1, hr.2.2]; omega
    · simp [h1]; omega
  | whiten =>
    simp only [hp] at hr
    rw [engineStep_whiten hp]
    left; refine ⟨by show (if _ then _ else _) ≠ _; split <;> decide, rfl, ?_⟩
    simp only [Engine.stepsLeft, hp, whitenStep, State.setEng_eng]
    by_cases h1 : s.eng.wcnt + 1 = 5
    · simp [h1]; omega
    · simp [h1]; omega
  | complete =>
    rw [engineStep_complete hp]
    right; exact ⟨rfl, .inr ⟨by simp [Engine.stepsLeft, hp], rfl⟩⟩

/-- With no turn to come, a run is the engine's steps. -/
theorem run_undisturbed (n : Nat) {s : State} (h : s.agenda = []) :
    Sys2Proof.core.run n s = .next (engineStep^[n] s) := by
  induction n generalizing s with
  | zero => rfl
  | succ n ih =>
    rw [Function.iterate_succ_apply, ← ih (s := engineStep s) (by rw [engineStep_agenda, h])]
    exact run_succ n (step_undisturbed h)

end Sys2Proof.Machine
end

