-- ==== Sys2Proof/Tests/Slice0.lean ====
section
/-! SUPPORT. Tests on fixed values, their expected results from 95_test_vectors.md (the vector is named at each test), and a
witness for every statement that has hypotheses. -/

open Sys2Proof Sys2Proof.Machine Sys2Proof.Spec

namespace Sys2Proof.Tests

/-! ### Helpers -/

/-- `K`: the 64-byte value whose byte j is j. -/
def K : Val :=
  0x3f3e3d3c3b3a393837363534333231302f2e2d2c2b2a292827262524232221201f1e1d1c1b1a191817161514131211100f0e0d0c0b0a09080706050403020100#512

/-- The next state, if there is one. -/
def next? (o : Host.Outcome State Fault Refusal) : Option State :=
  match o with
  | .next t => some t
  | .fault _ => none
  | .refused _ => none

/-- A step with a next state that passes a check. -/
theorem exists_next {o : Host.Outcome State Fault Refusal} {P : State → Prop} [DecidablePred P]
    (h : (next? o).map (fun t => decide (P t)) = some true) : ∃ t, o = .next t ∧ P t := by
  cases o with
  | next t => exact ⟨t, rfl, by simpa [next?] using h⟩
  | fault r => cases h
  | refused r => cases h

/-- One field of the state after one step whose turn is a host write of `v` to `offset`. -/
def afterWrite {α : Type} (s : State) (offset : Nat) (v : Word) (f : State → α) : Option α :=
  (next? (step (s.setAgenda [.host (.write (s.platform.base + offset) 8 v)]))).map f

/-- The reset state with all three processing widths. -/
def wide : State := State.resetWith { Config.platform with w256 := true, w512 := true }

/-- The reset state with C[0] = K, tag `a`. -/
def withK (a : ViewWidth) : State := State.reset.setCont 0 { B := K, T := a }

/-- A snapshot of operands. -/
def opOf (src len : Word) : Op := { src := src, len := len, seed := 0#64, ca := 2, R := .w256, W := .w128 }

/-- A run right after acceptance. -/
def runOf (src len : Word) : Engine := startEngine (opOf src len) []

/-- The reset state with that run in progress. -/
def busyWith (r : Engine) : State := State.reset.setEng r

/-- A run at the end of its absorption. -/
def rotating : Engine := runOf 0#64 0#64

/-- A run in its whitening. -/
def whitening : Engine := { rotating with phase := .whiten, rcnt := 16 }

/-- A run in its last step. -/
def completing : Engine := { rotating with phase := .complete, rcnt := 16, wcnt := 5 }

/-! ### Well-formedness (30_encoding.md R56) -/

theorem test_wf_hash_tag : (Instr.hash 0 .w128 .tag false).wellFormed = false := by decide
theorem test_wf_cget_index : (Instr.cget 0 (.of .w32) 16).wellFormed = false := by decide
theorem test_wf_cput_index : (Instr.cput 0 .tag 16).wellFormed = false := by decide

/-! ### Decode (section 6; the words of section 5) -/

theorem test_decode_nop : decode 0x000000000#64 = .command .nop := by decide
theorem test_decode_hash : decode 0x000002101#64 = .command (.hash 0 .w128 (.of .w64) true) := by decide
theorem test_decode_hash_w256 : decode 0x000000801#64 = .command (.hash 0 .w256 (.of .w32) false) := by decide
theorem test_decode_czero : decode 0x000000712#64 = .command (.czero 1 .tag) := by decide
theorem test_decode_ccopy : decode 0x0000001B3#64 = .command (.ccopy 3 2 (.of .w64)) := by decide
theorem test_decode_cget : decode 0x00003C004#64 = .command (.cget 0 (.of .w32) 15) := by decide
theorem test_decode_cput : decode 0x00001C115#64 = .command (.cput 1 (.of .w64) 7) := by decide
theorem test_decode_ceq : decode 0x000000046#64 = .command (.ceq 0 1) := by decide

/-- Whether a CMD write decodes to no command. -/
def isIllegal (v : Word) : Bool :=
  match decode v with
  | .command _ => false
  | .illegal _ => true

/-- The ILLEGAL words of section 6 that are so for every P_W_SUPPORTED. -/
theorem test_decode_illegal :
    [0x000000010#64, 0x000000501#64, 0x000000701#64, 0x000001801#64, 0x000004101#64, 0x000000041#64,
      0x000000502#64, 0x000000602#64, 0x000002002#64, 0x000000082#64, 0x000003003#64, 0x000004003#64,
      0x000040004#64, 0x000000084#64, 0x000000106#64, 0x000000007#64, 0x00000000F#64, 0x100000000#64].all
      isIllegal = true := by decide

theorem test_decode_table_word : decodeTableWord 32 0x00000712 = some (.czero 1 .tag) := by decide

/-! ### The AES datapath (section 2) -/

/-- V-A2. -/
theorem test_gmul : gmul 0x57#8 0x83#8 = 0xC1#8 := by decide
/-- V-A3. -/
theorem test_inv_sbox : [0x00#8, 0x63#8, 0xff#8, 0x52#8].map invSbox = [0x52#8, 0x00#8, 0x7d#8, 0x48#8] := by decide
/-- V-A4. -/
theorem test_inv_shift_rows :
    invShiftRows 0x0f0e0d0c0b0a09080706050403020100#128 = 0x0306090c0f0205080b0e0104070a0d00#128 := by decide +kernel
/-- V-A5. -/
theorem test_inv_mix_columns :
    invMixColumns 0xbca14d8ebca14d8ebca14d8ebca14d8e#128 = 0x455313db455313db455313db455313db#128 := by
  decide +kernel
/-- V-A11. -/
theorem test_aesdec :
    aesdec 0x0f0e0d0c0b0a09080706050403020100#128 0x1f1e1d1c1b1a19181716151413121110#128 =
      0x4e85a0daa9e8560f793f0c3a0f84b203#128 := by decide +kernel
/-- V-M1, at W = 256. -/
theorem test_merge :
    mergeW .w256 K 0#512 =
      0x7d66a8c736ab9c2a0e314eef5e7b5aecd679962614cf6f422c7a7635e8c1230caa7dc82873125ed66c5c7a9f6e57fba4519bbdc6b2f24f176e29192e1c96a313#512 := by
  decide +kernel
/-- V-M3. -/
theorem test_rot :
    rot K =
      0x0f0e0d0c0b0a090807060504030201003f3e3d3c3b3a393837363534333231302f2e2d2c2b2a292827262524232221201f1e1d1c1b1a19181716151413121110#512 := by
  decide +kernel
/-- V-I8. -/
theorem test_init_vector : lane (initVector 0xDEADBEEF#64 300#64) 3 = 0x00000000deadc01c00000000deadbeef#128 := by
  decide +kernel
/-- V-I6: the sum wraps. -/
theorem test_init_vector_wraps : lane (initVector 0xFFFFFFFFFFFFFFFF#64 0#64) 0 = 0x0000000000000000ffffffffffffffff#128 := by
  decide +kernel
/-- Section 3, the scratch example. -/
theorem test_scratch :
    lane (subBlock (scratch (initVector 0#64 1#64) [0x61#8]) 0) 0 = 0x00000000000000020000000000000061#128 := by
  decide +kernel
/-- V-H19. -/
theorem test_meow_hash :
    meowHash [0x61#8, 0x62#8, 0x63#8] 0#64 =
      0xce1576f48d3aa7822f68c974f86fc151a4eca88f3e29dfa96c36200901f4a8196a95b8ef65b4494adec2ab4f06ae718f7abcbdf00265805056c38f8b21c02765#512 := by
  decide +kernel

/-! ### Commands, one step each (sections 5 and 7) -/

/-- V-C21. -/
theorem test_nop : afterWrite (State.reset.setErr .range) 0x00 0x000#64 (·.err) = some .ok := by decide +kernel
/-- V-C2. -/
theorem test_czero :
    afterWrite (State.reset.setCont 1 { B := K, T := .w64 }) 0x00 0x712#64 (·.cont.get 1) =
      some { B := 0#512, T := .w64 } := by decide +kernel
/-- V-C4: the SOURCE's tag. -/
theorem test_ccopy : afterWrite (withK .w128) 0x00 0x713#64 (·.cont.get 1) = some { B := K, T := .w128 } := by
  decide +kernel
/-- V-C8. -/
theorem test_cget :
    afterWrite (withK .w512) 0x00 0xC204#64 (·.data) = some 0x3F3E3D3C3B3A39383736353433323130#512 := by decide +kernel
/-- V-C12: the range follows the tag. -/
theorem test_cget_range : afterWrite State.reset 0x00 0x4704#64 (·.err) = some .range := by decide +kernel
/-- V-C14. -/
theorem test_cput :
    afterWrite (State.reset.setData 0x1122334455667788#512) 0x00 0x1C115#64 (·.cont.get 1) =
      some { B := 0x1122334455667788#512 <<< 448, T := .w512 } := by decide +kernel
/-- V-C16. -/
theorem test_cput_range : afterWrite State.reset 0x00 0x4415#64 (·.err) = some .range := by decide +kernel
/-- V-C17: tags ignored. -/
theorem test_ceq :
    afterWrite ((withK .w64).setCont 1 { B := K, T := .w512 }) 0x00 0x046#64 (·.eq) = some true := by decide +kernel
/-- V-C19 and V-C18: a difference in one byte. -/
theorem test_ceq_differs :
    afterWrite ((withK .w64).setCont 1 { B := K - 0x100#512, T := .w512 }) 0x00 0x046#64 (·.eq) = some false := by
  decide +kernel
/-- V-E12: SRC + LEN = 2^64 exactly is accepted. -/
theorem test_hash_accepted :
    afterWrite ((State.reset.setSrc 0xFFFFFFFFFFFFFF00#64).setLen 0x100#64) 0x00 0x211#64 (fun t => (t.err, t.eng.phase)) =
      some (.ok, .absorb) := by decide +kernel
/-- V-E14: ALIGN is checked before the wrap. -/
theorem test_hash_align :
    afterWrite ((State.reset.setSrc 0xFFFFFFFFFFFFFF01#64).setLen 0x200#64) 0x00 0x2211#64 (fun t => (t.err, t.busy)) =
      some (.align, false) := by decide +kernel

/-! ### Host interface (section 7) -/

/-- V-E3. -/
theorem test_status_w1c :
    afterWrite ((State.reset.setErr .range).setWbusy true) 0x08 0x100#64 statusWord = some 0x020#64 := by decide +kernel
/-- V-E4. -/
theorem test_cap : (capWord { Config.platform with w512 := true }, capWord wide.platform) = (5#64, 7#64) := by decide
/-- V-E7. -/
theorem test_misaligned_access :
    step (State.reset.setAgenda [.host (.read 0x04 8)]) = .refused (.unadmittedAccess 0x04 8) := by rfl
/-- V-E16. -/
theorem test_cmd_while_busy : afterWrite (busyWith rotating) 0x00 0x000#64 statusWord = some 0x101#64 := by decide +kernel
/-- V-E17. -/
theorem test_seed_while_busy :
    afterWrite (busyWith rotating) 0x20 5#64 (fun t => (t.seed, t.eng)) = some (5#64, rotating) := by decide +kernel
/-- V-E21. -/
theorem test_reset_while_busy :
    (next? (step ((busyWith rotating).setAgenda [.reset]))) = some State.reset := by decide +kernel
/-- 42_hash_engine.md R98: one ROTATE step. -/
theorem test_engine_step : (next? (step (busyWith rotating))).map (fun t => (t.eng.phase, t.eng.rcnt)) =
    some (.rotate, 1) := by decide +kernel
/-- R112: the engine turns of `gaps` come before their line; none with an empty list. -/
theorem test_program_turns :
    programTurns 0 [.cmd (.czero 2 (.of .w32)), .wait] [2] =
      [.engine, .engine, .host (.write 0 8 0x022#64), .wait] ∧
    programTurns 0 [.cmd (.czero 2 (.of .w32)), .wait] [] = [.host (.write 0 8 0x022#64), .wait] := by decide
/-- 30_encoding.md R58: CIDX and RETAG. -/
theorem test_pseudo : (Pseudo.cidx 0 0).expand = .cget 0 .tag 0 ∧ (Pseudo.retag 2 .w64).expand = .ccopy 2 2 (.of .w64) := by
  decide

/-! ### Witnesses: a state and operands that meet every hypothesis of the statement, at a boundary value -/

theorem witness_DecodeOfEncode : (Instr.cput 3 .tag 15).wellFormed = true ∧
    (Instr.hash 3 .w512 (.of .w512) true).wellFormed = true := by decide

theorem witness_DecodedWrite : decode 0x3C705#64 = .command (.cput 0 .tag 15) ∧ decode 0#64 = .command .nop := by decide

theorem witness_DecodedWord_row : decode 0xF6#64 = .command (.ceq 3 3) ∧
    (Instr.ceq 0 1).row.matchesWord ((0xF6#64 : Word).setWidth 32) = true := by decide

/-- One word for each cause of ILLEGAL, the instance-dependent ones with P_W_SUPPORTED = {128}, and a legal one. -/
theorem witness_CmdWriteIsIllegal : State.reset.eng.phase = .idle ∧
    (∀ v ∈ [0x100000000#64, 0x40000#64, 0x7#64, 0x10#64, 0x41#64, 0x4101#64, 0x501#64, 0x1801#64, 0x801#64, 0x1001#64,
      0x82#64, 0x502#64, 0x3003#64, 0x603#64, 0x84#64, 0x604#64, 0x85#64, 0x2005#64, 0x106#64, 0x4006#64],
      illegalWrite Config.platform v) ∧ ¬ illegalWrite Config.platform 0x2101#64 := by
  refine ⟨rfl, ?_, ?_⟩
  · simp [illegalWrite, bits, Config.platform]
  · simp [illegalWrite, bits]

theorem witness_Cget : 15 < 512 / (resolve (.of .w32) ((withK .w64).cont.get 0)).bits ∧
    7 < 512 / (resolve .tag ((withK .w64).cont.get 0)).bits := by decide

theorem witness_Cput : 0 < 512 / (resolve .tag (State.reset.cont.get 3)).bits ∧
    3 < 512 / (resolve (.of .w128) (State.reset.cont.get 3)).bits := by decide

theorem witness_IndexOutOfRange : 512 / (resolve .tag (State.reset.cont.get 3)).bits ≤ 1 ∧
    512 / (resolve (.of .w128) (State.reset.cont.get 3)).bits ≤ 4 := by decide

theorem witness_CgetAfterCput : 15 < 512 / (resolve (.of .w32) (State.reset.cont.get 1)).bits ∧
    14 ≠ 15 ∧ 14 < 512 / (resolve (.of .w32) (State.reset.cont.get 1)).bits := by decide

theorem witness_NarrowViews : 3 < 4 ∧ 2 * 3 + 1 < 512 / ViewWidth.w64.bits := by decide

/-- V-E12 and V-E11: the sum is 2^64 exactly; LEN = 0 at the last address. -/
theorem witness_HashAcceptance :
    (let s := (State.reset.setSrc 0xFFFFFFFFFFFFFF00#64).setLen 0x100#64
     s.platform.supports .w128 = true ∧ s.src.toNat % (ProcWidth.w128.bits / 8) = 0 ∧
       s.src.toNat + s.len.toNat ≤ 2 ^ 64) ∧
    (let s := State.reset.setSrc 0xFFFFFFFFFFFFFFFF#64
     s.platform.supports .w128 = true ∧ s.len = 0#64) := by decide

theorem witness_HashRejections :
    State.reset.platform.supports .w256 = false ∧
    (wide.platform.supports .w256 = true ∧ (wide.setSrc 0x1010#64).src.toNat % (ProcWidth.w256.bits / 8) ≠ 0) ∧
    (let s := (State.reset.setSrc 0xFFFFFFFFFFFFFF00#64).setLen 0x101#64
     s.platform.supports .w128 = true ∧ ¬ (true = true ∧ s.src.toNat % (ProcWidth.w128.bits / 8) ≠ 0) ∧
       s.len ≠ 0#64 ∧ 2 ^ 64 < s.src.toNat + s.len.toNat) := by decide

theorem witness_CommandsChangeOnly : ∃ t, exec (.cput 1 (.of .w32) 0) State.reset = .next t ∧
    dest (.cput 1 (.of .w32) 0) ≠ some 0 ∧ (∀ x y, Instr.cput 1 (.of .w32) 0 ≠ .ceq x y) ∧
    (∀ c a k, Instr.cput 1 (.of .w32) 0 ≠ .cget c a k) ∧
    ∀ d w r aln, Instr.cput 1 (.of .w32) 0 ≠ .hash d w r aln := by
  refine ⟨_, rfl, by decide, ?_, ?_, ?_⟩ <;> simp

theorem witness_FailedCommand : State.reset.eng.phase = .idle ∧ ∃ t, writeCmd 0x4704#64 State.reset = .next t ∧ t.err ≠ .ok :=
  ⟨rfl, State.reset.accept.raise .range, rfl, by decide⟩

theorem witness_Aesdec : 3 < 4 ∧ 0 < 4 := by decide
theorem witness_MergeLanes : 3 < 4 := by decide
theorem witness_Rot : 63 < 64 := by decide
theorem witness_InitVector : 7 < 8 ∧ 3 < 4 := by decide
theorem witness_Scratch : 1 ≤ [0x61#8].length ∧ [0x61#8].length ≤ 255 ∧
    (List.replicate 255 0x61#8).length ≤ 255 :=
  ⟨by decide, by decide, by rw [List.length_replicate]⟩

/-- The last block of the address space. -/
theorem witness_Absorb :
    let s := busyWith (runOf 0xFFFFFFFFFFFFFF00#64 0x100#64)
    s.eng.phase = .absorb ∧ readable s (s.eng.op.src.toNat + 256 * s.eng.blk) 256 :=
  ⟨by decide, by unfold readable; decide⟩

/-- The largest tail, at the end of the address space. -/
theorem witness_Tail :
    let s := busyWith (runOf 0xFFFFFFFFFFFFFF01#64 0xFF#64)
    s.eng.phase = .tail ∧ s.eng.op.len.toNat % 256 ≠ 0 ∧
      readable s (s.eng.op.src.toNat + 256 * (s.eng.op.len.toNat / 256)) (s.eng.op.len.toNat % 256) :=
  ⟨by decide, by decide, by unfold readable; decide⟩

theorem witness_Rotate : (busyWith rotating).eng = rotating ∧ rotating.phase = .rotate ∧
    (busyWith { rotating with rcnt := 15 }).eng.phase = .rotate := ⟨rfl, by decide, by decide⟩
theorem witness_RotateSchedule : (busyWith rotating).agenda = [] ∧ (busyWith rotating).eng = rotating ∧
    rotating.phase = .rotate ∧ rotating.rcnt = 0 ∧ 16 ≤ 16 := ⟨rfl, rfl, by decide, rfl, by decide⟩
theorem witness_Whiten : (busyWith whitening).eng = whitening ∧ whitening.phase = .whiten := ⟨rfl, rfl⟩
theorem witness_Complete : (busyWith completing).eng = completing ∧ completing.phase = .complete ∧
    (1 : Fin 4) ≠ completing.op.ca ∧ (busyWith rotating).eng = rotating ∧ rotating.phase ≠ .complete :=
  ⟨rfl, rfl, by decide, rfl, by decide⟩

/-- P5's state at the step its platform refuses: the second block. -/
def atRefusedBlock : State :=
  (State.resetWith { Config.platform with refusedRegions := [⟨0x3100, 2 ^ 64⟩] }).setEng
    { runOf 0x3000#64 0x200#64 with blk := 1 }

/-- A state whose one-byte tail the platform refuses. -/
def atRefusedTail : State :=
  (State.resetWith { Config.platform with refusedRequests := [(0x1000, 1)] }).setEng (runOf 0x1000#64 1#64)

theorem witness_BusError :
    (atRefusedBlock.eng.phase = .absorb ∧
      refused atRefusedBlock (atRefusedBlock.eng.op.src.toNat + 256 * atRefusedBlock.eng.blk) 256) ∧
    (atRefusedTail.eng.phase = .tail ∧
      refused atRefusedTail (atRefusedTail.eng.op.src.toNat + 256 * (atRefusedTail.eng.op.len.toNat / 256))
        (atRefusedTail.eng.op.len.toNat % 256)) := by
  refine ⟨⟨by decide, ?_⟩, ⟨by decide, ?_⟩⟩ <;> (unfold refused; decide)

/-- The last byte of the buffer; a marked byte in a later step; a store behind other turns, at the last place where the run
still goes on. -/
theorem witness_StoreDuringARun :
    (let s := (busyWith (runOf 0x1000#64 3#64)).setAgenda [.store 0x1002#64 7#8]
     s.eng.phase ≠ .idle ∧ s.agenda = .store 0x1002#64 7#8 :: [] ∧ s.eng.op.src.toNat ≤ 0x1002 ∧
       0x1002 < s.eng.op.src.toNat + s.eng.op.len.toNat ∧ s.mem.wf = true) ∧
    (let s := busyWith { rotating with raced := [0x1000] }
     s.eng.phase ≠ .idle ∧ 0x1000 ∈ s.eng.raced ∧ ∃ t, step s = .next t ∧ t.eng.phase ≠ .idle) ∧
    (let pre := List.replicate 21 Turn.engine ++ [.host (.read 0x08 8), .store 0#64 0#8, .order]
     let s := (busyWith (runOf 0x1000#64 3#64)).setAgenda (pre ++ [.store 0x1002#64 7#8, .wait])
     s.agenda = pre ++ .store 0x1002#64 7#8 :: [.wait] ∧ (∀ x ∈ pre, x ≠ .wait ∧ x ≠ .reset) ∧
       pre.count .engine < s.eng.stepsLeft - 1 ∧ isAnyValue s 0x1002 = true) := by
  refine ⟨⟨by decide, rfl, by decide, by decide, rfl⟩, ⟨by decide, by decide, exists_next (by decide +kernel)⟩, ?_⟩
  exact ⟨rfl, by decide, by decide, by decide⟩

theorem witness_StoresStayUnordered :
    (let s := State.reset.setAgenda [.store 0xFFFFFFFFFFFFFFFF#64 7#8]
     s.eng.phase = .idle ∧ s.agenda = .store 0xFFFFFFFFFFFFFFFF#64 7#8 :: [] ∧ s.mem.wf = true ∧
       0 ≠ 0xFFFFFFFFFFFFFFFF) ∧
    (let s := (State.reset.setUnordered [5]).setAgenda [.reset]
     5 ∈ s.unordered ∧ (∀ rest, s.agenda ≠ .order :: rest) ∧ ∃ t, step s = .next t) ∧
    (let s := (State.reset.setUnordered [5]).setAgenda [.order, .host (.write 0 8 0x401#64)]
     s.eng.phase = .idle ∧ s.agenda = .order :: .host (.write (s.platform.base + 0x00) 8 0x401#64) :: [] ∧
       decode 0x401#64 = .command (.hash 0 .w128 (.of .w512) false)) :=
  ⟨⟨rfl, rfl, rfl, by decide⟩, ⟨by decide, (fun _ h => by injection h with h; cases h), _, rfl⟩, ⟨rfl, rfl, by decide⟩⟩

/-- One byte at the last address. -/
theorem witness_HashRun :
    let s := (State.reset.setSrc 0xFFFFFFFFFFFFFFFF#64).setLen 1#64
    s.agenda = [] ∧ s.unordered = [] ∧ (∀ x, s.src.toNat ≤ x → x < s.src.toNat + s.len.toNat →
      s.platform.hasSideEffect x = false) ∧ s.platform.supports .w128 = true ∧
    (false = true → s.src.toNat % (ProcWidth.w128.bits / 8) = 0) ∧ s.src.toNat + s.len.toNat ≤ 2 ^ 64 ∧ admitsInput s :=
  ⟨rfl, rfl, fun _ _ _ => rfl, rfl, (fun h => nomatch h), by decide, by simp [admitsInput, State.setSrc, State.setLen,
    State.reset, State.resetWith, Config.platform, Platform.admits]⟩

theorem rotating_inv : (busyWith rotating).inv :=
  ⟨rfl, ⟨by decide, by decide, by decide⟩, fun _ =>
    ⟨rfl, by decide, rfl, rfl, by simp [busyWith, rotating, runOf, startEngine], by decide, by decide, rfl⟩⟩

theorem witness_UndisturbedRun : (busyWith rotating).inv ∧ (busyWith rotating).agenda = [] ∧
    (busyWith rotating).eng.phase ≠ .idle := ⟨rotating_inv, rfl, by decide⟩

theorem witness_EngineAndWaitTurns :
    ((busyWith rotating).setAgenda [.engine]).agenda = .engine :: [] ∧
    ((busyWith rotating).setAgenda [.wait]).agenda = .wait :: [] ∧ ((busyWith rotating).setAgenda [.wait]).eng.phase ≠ .idle ∧
    (State.reset.setAgenda [.wait]).agenda = .wait :: [] ∧ (State.reset.setAgenda [.wait]).eng.phase = .idle ∧
    (busyWith rotating).agenda = [] := by decide

theorem witness_StepRunsTheDecodedCommand :
    let s := State.reset.setAgenda [.host (.write 0 8 0x712#64)]
    hostWrites s 0x00 0x712#64 [] ∧ s.eng.phase = .idle ∧ decode 0x712#64 = .command (.czero 1 .tag) :=
  ⟨rfl, rfl, by decide⟩

theorem witness_StepRunsTheFetchWord : State.reset.eng.phase = .idle ∧ decodeTableWord 32 0x0 = some .nop ∧
    decodeTableWord 32 0x3C705 = some (.cput 0 .tag 15) := by decide

theorem witness_CmdWriteWhileBusy :
    let s := (busyWith completing).setAgenda [.host (.write 0 8 0xFFFFFFFFFFFFFFFF#64)]
    hostWrites s 0x00 0xFFFFFFFFFFFFFFFF#64 [] ∧ s.eng.phase ≠ .idle := ⟨rfl, by decide⟩

theorem witness_StatusWrite : hostWrites (State.reset.setAgenda [.host (.write 0x08 8 0x100#64)]) 0x08 0x100#64 [] := rfl

theorem witness_OperandWrites :
    hostWrites (State.reset.setAgenda [.host (.write 0x10 8 1#64)]) 0x10 1#64 [] ∧
    hostWrites (State.reset.setAgenda [.host (.write 0x18 8 1#64)]) 0x18 1#64 [] ∧
    hostWrites (State.reset.setAgenda [.host (.write 0x20 8 1#64)]) 0x20 1#64 [] ∧
    7 < 8 ∧ hostWrites (State.reset.setAgenda [.host (.write 0x78 8 1#64)]) (0x40 + 8 * 7) 1#64 [] :=
  ⟨rfl, rfl, rfl, by decide, rfl⟩

theorem witness_ReadOnlySlots :
    hostWrites (State.reset.setAgenda [.host (.write 0x28 8 1#64)]) 0x28 1#64 [] ∧
    hostWrites (State.reset.setAgenda [.host (.write 0x30 8 1#64)]) 0x30 1#64 [] ∧
    hostWrites (State.reset.setAgenda [.host (.write 0x38 8 1#64)]) 0x38 1#64 [] := ⟨rfl, rfl, rfl⟩

theorem witness_Reads : ∀ k < 16, (8 * k) % 8 = 0 ∧ 8 * k ≤ 0x78 ∧
    (State.reset.setAgenda [.host (.read (8 * k) 8)]).agenda =
      .host (.read (State.reset.platform.base + 8 * k) 8) :: [] := by decide

/-- A 32-bit access, a misaligned one, one over the end of the window, and the first one past it. -/
theorem witness_UnadmittedAccess :
    (∀ q ∈ [(0x00, 4), (0x04, 8), (0x7C, 8)], q.1 < State.reset.platform.base + 128 ∧
      State.reset.platform.base < q.1 + q.2 ∧
      ¬ (q.2 = 8 ∧ State.reset.platform.base ≤ q.1 ∧ (q.1 - State.reset.platform.base) % 8 = 0)) ∧
    State.reset.platform.base + 128 ≤ 128 ∧
    (State.reset.setAgenda [.host (.read 0x04 8)]).agenda = .host (.read 0x04 8) :: [] := by decide

theorem witness_Admissible :
    (State.reset.setAgenda [.host (.write 0x00 8 0#64), .wait, .host (.read 0x78 8), .host (.read 0x80 4),
      .store 0#64 1#8, .order, .engine, .reset]).admissible = true := by decide

theorem witness_ProgramEnds : (busyWith rotating).inv ∧ ((busyWith rotating).setAgenda [.wait]).admissible = true :=
  ⟨rotating_inv, by decide⟩

theorem witness_ResetTurn : ((busyWith rotating).setAgenda [.reset]).agenda = .reset :: [] := rfl

theorem witness_EveryStepKeeps : (busyWith rotating).inv ∧ ∃ t, step (busyWith rotating) = .next t := ⟨rotating_inv, _, rfl⟩

/-- A completion, a CZERO and a reset each change container 0 or 2. -/
theorem witness_ContainersChange :
    (∃ t, step ((withK .w64).setAgenda [.reset]) = .next t ∧ t.cont.get 0 ≠ (withK .w64).cont.get 0) ∧
    (∃ t, step ((withK .w64).setAgenda [.host (.write 0 8 0x002#64)]) = .next t ∧
      t.cont.get 0 ≠ (withK .w64).cont.get 0) ∧
    (∃ t, step (busyWith completing) = .next t ∧ t.cont.get 2 ≠ (busyWith completing).cont.get 2) := by
  exact ⟨exists_next (by decide +kernel), exists_next (by decide +kernel), exists_next (by decide +kernel)⟩

/-- A step that changes each flag. -/
theorem witness_FlagsChange :
    (∃ t, step (State.reset.setAgenda [.host (.write 0 8 0x006#64)]) = .next t ∧ t.eq ≠ State.reset.eq) ∧
    (∃ t, step (State.reset.setAgenda [.host (.write 0 8 0x007#64)]) = .next t ∧ t.err ≠ State.reset.err) ∧
    (∃ t, step ((busyWith rotating).setAgenda [.host (.write 0 8 0#64)]) = .next t ∧ t.wbusy = true ∧
      (busyWith rotating).wbusy = false) ∧
    (∃ t, step ((State.reset.setWbusy true).setAgenda [.host (.write 8 8 0x100#64)]) = .next t ∧ t.wbusy = false) ∧
    (∃ t, step (State.reset.setAgenda [.host (.write 0 8 0x001#64)]) = .next t ∧ t.eng.phase ≠ .idle ∧
      State.reset.eng.phase = .idle) ∧
    (∃ t, step (busyWith completing) = .next t ∧ t.eng.phase = .idle ∧ (busyWith completing).eng.phase ≠ .idle) ∧
    (∃ t, step atRefusedBlock = .next t ∧ t.eng.phase = .idle ∧ atRefusedBlock.eng.phase ≠ .idle) ∧
    (∃ t, step atRefusedTail = .next t ∧ t.eng.phase = .idle ∧ atRefusedTail.eng.phase ≠ .idle) :=
  ⟨exists_next (by decide +kernel), exists_next (by decide +kernel), exists_next (by decide +kernel),
    exists_next (by decide +kernel), exists_next (by decide +kernel), exists_next (by decide +kernel),
    exists_next (by decide +kernel), exists_next (by decide +kernel)⟩

theorem witness_MemoryChanges : ∃ t, step (State.reset.setAgenda [.store 0#64 1#8]) = .next t ∧
    t.mem.read 0 ≠ State.reset.mem.read 0 := ⟨_, rfl, by decide⟩

end Sys2Proof.Tests
end

section
/-! Platform memory along a step (00_scope.md R3, 20_memory.md R34, R44): the block only reads it. -/

namespace Sys2Proof.Machine

@[simp] theorem engineStep_mem (s : State) : (engineStep s).mem = s.mem := by
  obtain ⟨-, -, hmem, -⟩ := engineStep_frame s
  exact hmem

/-- The parameters are the instance's (R5): no step writes them, reset included. -/
theorem step_platform {s t : State} (h : step s = .next t) : t.platform = s.platform := by
  cases step_cases h with
  | engine rest _ => simp
  | passes x rest _ => rfl
  | reads r rest _ => rfl
  | writes r v rest t _ hw =>
    obtain ⟨hplatform, -, -⟩ := writeCase_keeps hw
    exact hplatform
  | stores a b rest _ => rfl
  | orders rest _ => rfl
  | resets rest _ => rfl

/-- What a step can do to memory: nothing, or the one byte another agent's store writes. -/
theorem step_mem {s t : State} (h : step s = .next t) :
    t.mem = s.mem ∨ ∃ a b rest, s.agenda = .store a b :: rest ∧ t.mem = s.mem.write a.toNat b := by
  cases step_cases h with
  | engine rest _ => left; simp
  | passes x rest _ => exact .inl rfl
  | reads r rest _ => exact .inl rfl
  | writes r v rest t _ hw =>
    obtain ⟨-, -, hmem⟩ := writeCase_keeps hw
    exact .inl hmem
  | stores a b rest ha => exact .inr ⟨a, b, rest, ha, rfl⟩
  | orders rest _ => exact .inl rfl
  | resets rest _ => exact .inl rfl

/-- Settles O57: a step keeps memory or writes the byte of a store turn (`step_mem`), and such a write leaves every
other address as it was. -/
theorem memoryChangesOnlyByStoresOfOtherAgents : Obligations.MemoryChangesOnlyByStoresOfOtherAgents := by
  intro s t h
  refine ⟨step_platform h, fun x hx => ?_⟩
  rcases step_mem h with hmem | ⟨a, b, rest, ha, hmem⟩
  · rw [hmem] at hx
    exact absurd rfl hx
  · rw [hmem] at hx
    have hax : x = a.toNat := by
      by_contra hne
      exact hx (Memory.read_write_ne s.mem b hne)
    exact ⟨a, b, rest, ha, hax.symm⟩

end Sys2Proof.Machine
end

section
/-! The invariant along a step (10_state.md R15, R29, 42_hash_engine.md R90 to R100): the states and engines it carries
over to, acceptance, the engine's micro-steps, host writes, and the step. -/

namespace Sys2Proof.Machine

/-! ### What the invariant speaks of -/

/-- The invariant reads memory, the engine, ERR and the parameters only. -/
theorem State.inv_congr {s t : State} (hs : s.inv) (hmem : t.mem = s.mem) (heng : t.eng = s.eng) (herr : t.err = s.err)
    (hplatform : t.platform = s.platform) : t.inv := by
  unfold State.inv at *
  rwa [hmem, heng, herr, hplatform]

/-- With the engine idle, ERR is free. -/
theorem State.inv_of_idle {s : State} (hmem : s.mem.wf = true) (hrange : s.eng.inRange) (hidle : s.eng.phase = .idle) :
    s.inv := ⟨hmem, hrange, fun hb => absurd hidle hb⟩

/-- An idle state keeps the invariant under whatever leaves memory and the engine alone. -/
theorem State.inv_of_same_idle_engine {s t : State} (hs : s.inv) (hidle : s.eng.phase = .idle) (hmem : t.mem = s.mem)
    (heng : t.eng = s.eng) : t.inv := by
  obtain ⟨hwf, hrange, -⟩ := hs
  exact State.inv_of_idle (hmem ▸ hwf) (heng ▸ hrange) (heng ▸ hidle)

/-- A run in progress has its counters in their ranges (R29). -/
theorem Engine.runInv_inRange {p : Platform} {e : Engine} (h : e.runInv p) : e.inRange := by
  obtain ⟨-, -, -, -, hat⟩ := h
  unfold Engine.inRange
  cases hp : e.phase <;> simp only [hp] at hat <;> omega

/-- A run in progress with ERR 0 has the invariant. -/
theorem State.inv_of_run {s : State} (hmem : s.mem.wf = true) (herr : s.err = .ok) (hrun : s.eng.runInv s.platform) :
    s.inv := ⟨hmem, Engine.runInv_inRange hrun, fun _ => ⟨herr, hrun⟩⟩

/-! ### Acceptance (R90, R91, R94) -/

/-- The check of R90 on the mathematical sum; an empty buffer cannot wrap. -/
theorem rangeWraps_eq_false {src len : Word} (h : rangeWraps src len = false) : src.toNat + len.toNat ≤ 2 ^ 64 := by
  have hsrc := src.isLt
  simp only [rangeWraps, decide_eq_false_iff_not, not_and] at h
  by_cases h0 : len = 0#64
  · subst h0
    simp only [BitVec.toNat_ofNat]
    omega
  · exact Nat.not_lt.1 (h h0)

/-- An accepted HASH starts a run as the invariant says. -/
theorem startEngine_runInv {p : Platform} {o : Op} (unordered : List Nat) (hw : p.supports o.W = true)
    (hwrap : rangeWraps o.src o.len = false) : (startEngine o unordered).runInv p := by
  refine ⟨rangeWraps_eq_false hwrap, hw, rfl, fun a ha => (List.mem_filter.1 ha).2, ?_⟩
  simp only [startEngine, firstPhase]
  by_cases hnb : o.nb > 0
  · simp [hnb]
  · have h0 : o.nb = 0 := by omega
    by_cases htail : o.tailLen = 0 <;> simp [h0, htail]

/-! ### Micro-steps (R95 to R101) -/

/-- The phase after a full block (R95). -/
theorem phaseAfterAbsorb_cases (o : Op) (blk : Nat) :
    (blk ≠ o.nb ∧ phaseAfterAbsorb o blk = .absorb) ∨
    (blk = o.nb ∧ o.tailLen ≠ 0 ∧ phaseAfterAbsorb o blk = .tail) ∨
    (blk = o.nb ∧ phaseAfterAbsorb o blk = .rotate) := by
  unfold phaseAfterAbsorb
  by_cases hblk : blk = o.nb <;> by_cases htail : o.tailLen = 0 <;> simp [hblk, htail]

/-- A run that goes on stays as the invariant says: the operands, IV and the raced bytes stay, and the counters are where
the next phase wants them. -/
theorem engineStep_runInv {s : State} (hrun : s.eng.runInv s.platform) (hb : (engineStep s).eng.phase ≠ .idle) :
    (engineStep s).eng.runInv s.platform := by
  obtain ⟨hwrap, hw, hiv, hraced, hat⟩ := hrun
  cases hp : s.eng.phase with
  | idle => simp [hp] at hat
  | absorb =>
    simp only [hp] at hat
    obtain ⟨hblk, hrcnt, hwcnt, hret⟩ := hat
    rw [engineStep_absorb hp, absorbStep] at hb ⊢
    split at hb
    · exact absurd rfl hb
    · refine ⟨hwrap, hw, hiv, hraced, ?_⟩
      rcases phaseAfterAbsorb_cases s.eng.op (s.eng.blk + 1) with
        ⟨hne, hq⟩ | ⟨heq, htail, hq⟩ | ⟨heq, hq⟩ <;> simp only [State.setEng_eng, hq]
      · exact ⟨by omega, hrcnt, hwcnt, hret⟩
      · exact ⟨heq, htail, hrcnt, hwcnt, hret⟩
      · exact ⟨heq, by omega, hwcnt⟩
  | tail =>
    simp only [hp] at hat
    obtain ⟨hblk, -, hrcnt, hwcnt, -⟩ := hat
    rw [engineStep_tail hp, tailStep] at hb ⊢
    split at hb
    · exact absurd rfl hb
    · exact ⟨hwrap, hw, hiv, hraced, hblk, by simp [hrcnt], hwcnt⟩
  | rotate =>
    simp only [hp] at hat
    obtain ⟨hblk, hrcnt, hwcnt⟩ := hat
    rw [engineStep_rotate hp]
    refine ⟨hwrap, hw, hiv, hraced, ?_⟩
    by_cases hlast : s.eng.rcnt + 1 = 16
    · simp [rotateStep, hlast, hblk, hwcnt]
    · simp only [rotateStep, State.setEng_eng, if_neg hlast]
      exact ⟨hblk, by omega, hwcnt⟩
  | whiten =>
    simp only [hp] at hat
    obtain ⟨hblk, hrcnt, hwcnt⟩ := hat
    rw [engineStep_whiten hp]
    refine ⟨hwrap, hw, hiv, hraced, ?_⟩
    by_cases hlast : s.eng.wcnt + 1 = 5
    · simp [whitenStep, hlast, hblk, hrcnt]
    · simp only [whitenStep, State.setEng_eng, if_neg hlast]
      exact ⟨hblk, hrcnt, by omega⟩
  | complete =>
    rw [engineStep_complete hp] at hb
    exact absurd rfl hb

/-- The counters stay in their ranges when a run ends (R29). -/
theorem engineStep_inRange_of_idle {s : State} (hrange : s.eng.inRange) (hidle : (engineStep s).eng.phase = .idle) :
    (engineStep s).eng.inRange := by
  have h := engineStep_cases s
  generalize engineStep s = t at h hidle
  cases h with
  | idle _ => exact hrange
  | goesOn e n _ he _ _ _ => exact absurd hidle he
  | aborts addr n _ _ => exact freeEngine_ranges _
  | completes _ => exact freeEngine_ranges _

/-- ERR changes only with the end of a run. -/
theorem engineStep_err_of_busy {s : State} (hb : (engineStep s).eng.phase ≠ .idle) : (engineStep s).err = s.err := by
  have h := engineStep_cases s
  generalize engineStep s = t at h hb
  cases h with
  | idle _ => rfl
  | goesOn e n _ _ _ _ _ => rfl
  | aborts addr n _ _ => exact absurd rfl hb
  | completes _ => exact absurd rfl hb

/-- An idle engine stays idle. -/
theorem phase_ne_idle_of_engineStep {s : State} (hb : (engineStep s).eng.phase ≠ .idle) : s.eng.phase ≠ .idle := by
  intro hidle
  rw [engineStep_idle hidle] at hb
  exact hb hidle

/-- The engine's micro-step keeps the invariant. -/
theorem engineStep_keeps_inv {s : State} (hs : s.inv) : (engineStep s).inv := by
  obtain ⟨hmem, hrange, hbusy⟩ := hs
  have hmem' : (engineStep s).mem.wf = true := by rwa [engineStep_mem]
  by_cases hidle : (engineStep s).eng.phase = .idle
  · exact State.inv_of_idle hmem' (engineStep_inRange_of_idle hrange hidle) hidle
  · obtain ⟨herr, hrun⟩ := hbusy (phase_ne_idle_of_engineStep hidle)
    refine State.inv_of_run hmem' ((engineStep_err_of_busy hidle).trans herr) ?_
    rw [engineStep_platform]
    exact engineStep_runInv hrun hidle

/-! ### Commands, host writes and stores -/

/-- An accepted command keeps the invariant: only HASH touches the engine, and it starts a run. -/
theorem exec_keeps_inv {i : Instr} {s t : State} (hs : s.inv) (hidle : s.eng.phase = .idle) (h : exec i s = .next t) :
    t.inv := by
  cases exec_next h with
  | hash d w a aln hw _ hwrap => exact State.inv_of_run hs.1 rfl (startEngine_runInv s.unordered hw hwrap)
  | _ => exact State.inv_of_same_idle_engine hs hidle rfl rfl

/-- A host write of a slot keeps the invariant: while a run is in progress it reaches neither the engine nor ERR. -/
theorem writeCase_keeps_inv {s t : State} {v : Word} {r : Reg} (hs : s.inv) (h : WriteCase s v r t) : t.inv := by
  cases h with
  | illegal why hidle _ => exact State.inv_of_same_idle_engine hs hidle rfl rfl
  | command i t hidle _ he =>
    have haccept : s.accept.inv := State.inv_of_same_idle_engine hs hidle rfl rfl
    exact exec_keeps_inv haccept hidle he
  | _ => apply State.inv_congr hs <;> simp

/-- What noting another agent's store can do to the engine (20_memory.md R44): nothing, or mark a byte of the buffer of
the run in progress. -/
theorem Engine.noteStore_cases (e : Engine) (a : Nat) :
    e.noteStore a = e ∨ (e.op.inBuffer a = true ∧ e.noteStore a = { e with raced := a :: e.raced }) := by
  unfold Engine.noteStore
  split
  · next h => exact .inr ⟨h.2, rfl⟩
  · exact .inl rfl

/-- Another agent's store keeps the invariant: only bytes of the buffer are marked. -/
theorem storeByte_keeps_inv {s : State} (hs : s.inv) (a : Word) (b : Byte) : (storeByte a b s).inv := by
  have hmem := storeByte_mem_wf a b s hs.1
  obtain ⟨-, hrange, hbusy⟩ := hs
  rcases Engine.noteStore_cases s.eng a.toNat with heng | ⟨hin, heng⟩
  · have he : (storeByte a b s).eng = s.eng := heng
    exact ⟨hmem, he ▸ hrange, fun hb => he ▸ hbusy (he ▸ hb)⟩
  · have he : (storeByte a b s).eng = { s.eng with raced := a.toNat :: s.eng.raced } := heng
    refine ⟨hmem, he ▸ hrange, fun hb => ?_⟩
    rw [he] at hb ⊢
    obtain ⟨herr, hwrap, hw, hiv, hraced, hat⟩ := hbusy hb
    exact ⟨herr, hwrap, hw, hiv, List.forall_mem_cons.2 ⟨hin, hraced⟩, hat⟩

/-! ### The step -/

/-- Settles O53: whatever the turn, the engine, the host, another agent or the reset input keeps the invariant; the turns
to come, the read log and the unordered stores are none of its concern. -/
theorem everyStepKeepsTheInvariant : Obligations.EveryStepKeepsTheInvariant := by
  intro s t hs h
  have hturn (rest : List Turn) : (s.setAgenda rest).inv := State.inv_congr hs rfl rfl rfl rfl
  cases step_cases h with
  | engine rest _ => exact engineStep_keeps_inv (hturn rest)
  | passes x rest _ => exact hturn rest
  | reads r rest _ => exact State.inv_congr hs rfl rfl rfl rfl
  | writes r v rest t _ hw => exact writeCase_keeps_inv (hturn rest) hw
  | stores a b rest _ => exact storeByte_keeps_inv (hturn rest) a b
  | orders rest _ => exact State.inv_congr hs rfl rfl rfl rfl
  | resets rest _ => exact State.inv_of_idle hs.1 ⟨Nat.zero_le _, Nat.zero_le _, Nat.zero_le _⟩ rfl

end Sys2Proof.Machine
end

section
/-! The containers along a step (10_state.md R23, 42_hash_engine.md R101): who writes one, from the command up to the
step. -/

namespace Sys2Proof.Machine

open Sys2Proof.Spec

/-- A command writes no container but its destination (40_container.md). -/
theorem exec_cont {i : Instr} {s t : State} (h : exec i s = .next t) :
    t.cont = s.cont ∨ ∃ d k, dest i = some d ∧ t.cont = s.cont.set d k := by
  cases exec_next h with
  | czero d a k => exact .inr ⟨d, k, rfl, rfl⟩
  | ccopy d src a k => exact .inr ⟨d, k, rfl, rfl⟩
  | cput d a idx k => exact .inr ⟨d, k, rfl, rfl⟩
  | _ => left; simp

/-- A host write of a slot writes no container but the destination of the command it is accepted as. -/
theorem writeCase_cont {s t : State} {v : Word} {r : Reg} (h : WriteCase s v r t) :
    t.cont = s.cont ∨ (r = .cmd ∧ s.eng.phase = .idle ∧
      ∃ i d k, decode v = .command i ∧ dest i = some d ∧ t.cont = s.cont.set d k) := by
  cases h with
  | command i t hidle hd he =>
    rcases exec_cont he with hsame | ⟨d, k, hdest, hset⟩
    · exact .inl hsame
    · exact .inr ⟨rfl, hidle, i, d, k, hd, hdest, hset⟩
  | _ => left; simp

/-- No micro-step but COMPLETE writes a container, and that one RET and R to the run's destination (R101). -/
theorem engineStep_cont (s : State) :
    (engineStep s).cont = s.cont ∨ (s.eng.phase = .complete ∧
      (engineStep s).cont = s.cont.set s.eng.op.ca { B := s.eng.ret, T := s.eng.op.R }) := by
  have h := engineStep_cases s
  generalize engineStep s = t at h
  cases h with
  | completes hp => exact .inr ⟨hp, rfl⟩
  | _ => exact .inl rfl

/-- Replacing one entry of a file changes no other. -/
theorem Quad.eq_of_get_set_ne {α : Type} {q : Quad α} {i j : Fin 4} {a : α} (h : (q.set i a).get j ≠ q.get j) : i = j := by
  by_contra hne
  exact h (Quad.get_set_ne q a (Ne.symm hne))

/-- Settles O55: of the turns only the engine's, a host write and reset reach the containers, and each of the first two
replaces the one entry that `engineStep_cont` and `writeCase_cont` name. -/
theorem containersChangeOnlyByNamedWrites : Obligations.ContainersChangeOnlyByNamedWrites := by
  intro s t c h hc
  cases step_cases h with
  | engine rest _ =>
    rcases engineStep_cont (s.setAgenda rest) with hsame | ⟨hp, hset⟩
    · exact absurd (congrArg (·.get c) hsame) hc
    · rw [hset] at hc ⊢
      obtain rfl := Quad.eq_of_get_set_ne hc
      exact .inr (.inl ⟨hp, rfl, Quad.get_set_same _ _ _⟩)
  | writes r v rest t ha hw =>
    rcases writeCase_cont hw with hsame | ⟨rfl, hidle, i, d, k, hd, hdest, hset⟩
    · exact absurd (congrArg (·.get c) hsame) hc
    · rw [hset] at hc
      obtain rfl := Quad.eq_of_get_set_ne hc
      exact .inr (.inr ⟨v, i, rest, hidle, ha, hd, hdest⟩)
  | resets rest ha => exact .inl ⟨rest, ha⟩
  | _ => exact absurd rfl hc

end Sys2Proof.Machine
end

section
/-! The flags along a step (10_state.md R30, R32, 60_exceptions.md R124): who writes EQ, ERR, WBUSY and BUSY, from the
command up to the step. -/

namespace Sys2Proof.Machine

open Sys2Proof.Spec

/-! ### Commands -/

/-- Of the commands only CEQ writes EQ (40_container.md R72). -/
theorem exec_eq {i : Instr} {s t : State} (h : exec i s = .next t) : t.eq = s.eq ∨ ∃ x y, i = .ceq x y := by
  cases exec_next h with
  | ceq x y b => exact .inr ⟨x, y, rfl⟩
  | _ => left; simp

/-- No command writes WBUSY. -/
theorem exec_wbusy {i : Instr} {s t : State} (h : exec i s = .next t) : t.wbusy = s.wbusy := by
  cases exec_next h <;> simp

/-- Of the commands only HASH touches the engine (42_hash_engine.md R94). -/
theorem exec_eng {i : Instr} {s t : State} (h : exec i s = .next t) :
    t.eng = s.eng ∨ ∃ d w a aln, i = .hash d w a aln := by
  cases exec_next h with
  | hash d w a aln _ _ _ => exact .inr ⟨d, w, .of a, aln, rfl⟩
  | _ => left; simp

/-! ### Host writes -/

/-- A host write of a slot changes EQ only as an accepted CEQ. -/
theorem writeCase_eq {s t : State} {v : Word} {r : Reg} (h : WriteCase s v r t) :
    t.eq = s.eq ∨ (r = .cmd ∧ s.eng.phase = .idle ∧ ∃ x y, decode v = .command (.ceq x y)) := by
  cases h with
  | command i t hidle hd he =>
    rcases exec_eq he with hsame | ⟨x, y, rfl⟩
    · exact .inl hsame
    · exact .inr ⟨rfl, hidle, x, y, hd⟩
  | _ => left; simp

/-- A host write of a slot changes ERR only as an accepted CMD write (43_host_interface.md R107). -/
theorem writeCase_err {s t : State} {v : Word} {r : Reg} (h : WriteCase s v r t) :
    t.err = s.err ∨ (r = .cmd ∧ s.eng.phase = .idle) := by
  cases h with
  | illegal why hidle _ => exact .inr ⟨rfl, hidle⟩
  | command i t hidle _ _ => exact .inr ⟨rfl, hidle⟩
  | _ => left; simp

/-- A host write of a slot sets WBUSY only as a dropped CMD write, and clears it only as a STATUS write with bit 8 (R107,
R108). -/
theorem writeCase_wbusy {s t : State} {v : Word} {r : Reg} (h : WriteCase s v r t) :
    t.wbusy = s.wbusy ∨ (t.wbusy = true ∧ r = .cmd ∧ s.eng.phase ≠ .idle) ∨
      (t.wbusy = false ∧ r = .status ∧ v.getLsbD 8 = true) := by
  cases h with
  | dropped hb => exact .inr (.inl ⟨rfl, rfl, (State.busy_iff s).1 hb⟩)
  | status =>
    by_cases hbit : v.getLsbD 8 = true
    · exact .inr (.inr ⟨if_pos hbit, rfl, hbit⟩)
    · exact .inl (if_neg hbit)
  | command i t _ _ he => exact .inl (exec_wbusy he)
  | _ => left; simp

/-- A host write of a slot touches the engine only as an accepted HASH. -/
theorem writeCase_eng {s t : State} {v : Word} {r : Reg} (h : WriteCase s v r t) :
    t.eng = s.eng ∨ (r = .cmd ∧ s.eng.phase = .idle ∧ ∃ d w a aln, decode v = .command (.hash d w a aln)) := by
  cases h with
  | command i t hidle hd he =>
    rcases exec_eng he with hsame | ⟨d, w, a, aln, rfl⟩
    · exact .inl hsame
    · exact .inr ⟨rfl, hidle, d, w, a, aln, hd⟩
  | _ => left; simp

/-! ### The engine and the other agents -/

@[simp] theorem engineStep_eq (s : State) : (engineStep s).eq = s.eq := by
  obtain ⟨-, -, -, -, -, -, -, -, -, heq, -⟩ := engineStep_frame s
  exact heq

@[simp] theorem engineStep_wbusy (s : State) : (engineStep s).wbusy = s.wbusy := by
  obtain ⟨-, -, -, -, -, -, -, -, -, -, hwbusy⟩ := engineStep_frame s
  exact hwbusy

/-- The engine changes ERR only with the end of a run (42_hash_engine.md R101, R102). -/
theorem engineStep_err (s : State) :
    (engineStep s).err = s.err ∨ (s.eng.phase ≠ .idle ∧ (engineStep s).eng.phase = .idle) := by
  by_cases hidle : (engineStep s).eng.phase = .idle
  · by_cases hs : s.eng.phase = .idle
    · exact .inl (by rw [engineStep_idle hs])
    · exact .inr ⟨hs, hidle⟩
  · exact .inl (engineStep_err_of_busy hidle)

/-- MemRead answers BusError only to a refused request (20_memory.md R38). -/
theorem refused_of_memRead_eq_none {s : State} {addr n : Nat} (h : memRead s addr n = none) : refused s addr n := by
  rcases memRead_cases s addr n with ⟨-, hread⟩ | ⟨hn, hwhy, -⟩ | ⟨-, -, -, hread⟩
  · rw [hread] at h; cases h
  · exact ⟨hn, hwhy⟩
  · rw [hread] at h; cases h

/-- A run ends by a step at COMPLETE or by a refused read in ABSORB or TAIL (42_hash_engine.md R101, R102). -/
theorem engineStep_ends_run {s : State} (hb : s.eng.phase ≠ .idle) (hidle : (engineStep s).eng.phase = .idle) :
    s.eng.phase = .complete ∨
    (s.eng.phase = .absorb ∧ refused s (s.eng.op.src.toNat + 256 * s.eng.blk) 256) ∨
    (s.eng.phase = .tail ∧ refused s (s.eng.op.src.toNat + 256 * s.eng.op.nb) s.eng.op.tailLen) := by
  have h := engineStep_cases s
  generalize engineStep s = t at h hidle
  cases h with
  | idle hp => exact absurd hp hb
  | goesOn e n _ he _ _ _ => exact absurd hidle he
  | aborts addr n hp hr =>
    have href := refused_of_memRead_eq_none hr
    rcases hp with ⟨hp, rfl, rfl⟩ | ⟨hp, rfl, rfl⟩
    · exact .inr (.inl ⟨hp, href⟩)
    · exact .inr (.inr ⟨hp, href⟩)
  | completes hp => exact .inl hp

@[simp] theorem Engine.noteStore_phase (e : Engine) (a : Nat) : (e.noteStore a).phase = e.phase := by
  rcases Engine.noteStore_cases e a with heng | ⟨-, heng⟩ <;> rw [heng]

/-- Another agent's store starts and ends no run. -/
@[simp] theorem storeByte_phase (a : Word) (b : Byte) (s : State) : (storeByte a b s).eng.phase = s.eng.phase :=
  Engine.noteStore_phase s.eng a.toNat

/-! ### The step, flag by flag -/

/-- EQ changes only by reset or an accepted CEQ. -/
theorem step_eq {s t : State} (h : step s = .next t) (hne : t.eq ≠ s.eq) :
    (∃ rest, s.agenda = .reset :: rest) ∨
      ∃ v x y rest, s.eng.phase = .idle ∧ hostWrites s 0x00 v rest ∧ decode v = .command (.ceq x y) := by
  cases step_cases h with
  | engine rest _ => exact absurd (engineStep_eq _) hne
  | writes r v rest t ha hw =>
    rcases writeCase_eq hw with hsame | ⟨rfl, hidle, x, y, hd⟩
    · exact absurd hsame hne
    · exact .inr ⟨v, x, y, rest, hidle, ha, hd⟩
  | resets rest ha => exact .inl ⟨rest, ha⟩
  | _ => exact absurd rfl hne

/-- ERR changes only by reset, an accepted CMD write or the end of a run. -/
theorem step_err {s t : State} (h : step s = .next t) (hne : t.err ≠ s.err) :
    (∃ rest, s.agenda = .reset :: rest) ∨
      (∃ v rest, s.eng.phase = .idle ∧ hostWrites s 0x00 v rest) ∨ (s.eng.phase ≠ .idle ∧ t.eng.phase = .idle) := by
  cases step_cases h with
  | engine rest _ =>
    rcases engineStep_err (s.setAgenda rest) with hsame | hends
    · exact absurd hsame hne
    · exact .inr (.inr hends)
  | writes r v rest t ha hw =>
    rcases writeCase_err hw with hsame | ⟨rfl, hidle⟩
    · exact absurd hsame hne
    · exact .inr (.inl ⟨v, rest, hidle, ha⟩)
  | resets rest ha => exact .inl ⟨rest, ha⟩
  | _ => exact absurd rfl hne

/-- WBUSY stays, is set by a CMD write during a run, or is cleared by reset or by a STATUS write with bit 8. -/
theorem step_wbusy {s t : State} (h : step s = .next t) :
    t.wbusy = s.wbusy ∨
    (t.wbusy = true ∧ ∃ v rest, s.eng.phase ≠ .idle ∧ hostWrites s 0x00 v rest) ∨
    (t.wbusy = false ∧ ((∃ rest, s.agenda = .reset :: rest) ∨
      ∃ v rest, hostWrites s 0x08 v rest ∧ v.getLsbD 8 = true)) := by
  cases step_cases h with
  | engine rest _ => exact .inl (engineStep_wbusy _)
  | writes r v rest t ha hw =>
    rcases writeCase_wbusy hw with hsame | ⟨hset, rfl, hb⟩ | ⟨hclear, rfl, hbit⟩
    · exact .inl hsame
    · exact .inr (.inl ⟨hset, v, rest, hb, ha⟩)
    · exact .inr (.inr ⟨hclear, .inr ⟨v, rest, ha, hbit⟩⟩)
  | resets rest ha => exact .inr (.inr ⟨rfl, .inl ⟨rest, ha⟩⟩)
  | _ => exact .inl rfl

/-- WBUSY that rises was set by a CMD write during a run (43_host_interface.md R107). -/
theorem step_wbusy_rises {s t : State} (h : step s = .next t) (ht : t.wbusy = true) (hs : s.wbusy = false) :
    ∃ v rest, s.eng.phase ≠ .idle ∧ hostWrites s 0x00 v rest := by
  rcases step_wbusy h with hsame | ⟨-, hwrite⟩ | ⟨hclear, -⟩
  · simp [hsame, hs] at ht
  · exact hwrite
  · simp [hclear] at ht

/-- WBUSY that falls was cleared by reset or by a STATUS write with bit 8 (R108). -/
theorem step_wbusy_falls {s t : State} (h : step s = .next t) (ht : t.wbusy = false) (hs : s.wbusy = true) :
    (∃ rest, s.agenda = .reset :: rest) ∨ ∃ v rest, hostWrites s 0x08 v rest ∧ v.getLsbD 8 = true := by
  rcases step_wbusy h with hsame | ⟨hset, -⟩ | ⟨-, hwhy⟩
  · simp [hsame, hs] at ht
  · simp [hset] at ht
  · exact hwhy

/-- BUSY rises only by a HASH. -/
theorem step_busy_rises {s t : State} (h : step s = .next t) (ht : t.eng.phase ≠ .idle) (hs : s.eng.phase = .idle) :
    ∃ v d w a aln rest, hostWrites s 0x00 v rest ∧ decode v = .command (.hash d w a aln) := by
  cases step_cases h with
  | engine rest _ => exact absurd hs (phase_ne_idle_of_engineStep (s := s.setAgenda rest) ht)
  | writes r v rest t ha hw =>
    rcases writeCase_eng hw with hsame | ⟨rfl, -, d, w, a, aln, hd⟩
    · rw [hsame] at ht
      exact absurd hs ht
    · exact ⟨v, d, w, a, aln, rest, ha, hd⟩
  | stores a b rest _ => rw [storeByte_phase] at ht; exact absurd hs ht
  | resets rest _ => exact absurd rfl ht
  | _ => exact absurd hs ht

/-- BUSY falls only by reset or by a step that ends the run. -/
theorem step_busy_falls {s t : State} (h : step s = .next t) (ht : t.eng.phase = .idle) (hs : s.eng.phase ≠ .idle) :
    (∃ rest, s.agenda = .reset :: rest) ∨ s.eng.phase = .complete ∨
      (s.eng.phase = .absorb ∧ refused s (s.eng.op.src.toNat + 256 * s.eng.blk) 256) ∨
      (s.eng.phase = .tail ∧ refused s (s.eng.op.src.toNat + 256 * s.eng.op.nb) s.eng.op.tailLen) := by
  cases step_cases h with
  | engine rest _ => exact .inr (engineStep_ends_run (s := s.setAgenda rest) hs ht)
  | writes r v rest t _ hw =>
    rcases writeCase_eng hw with hsame | ⟨-, hidle, -⟩
    · rw [hsame] at ht
      exact absurd ht hs
    · exact absurd hidle hs
  | stores a b rest _ => rw [storeByte_phase] at ht; exact absurd ht hs
  | resets rest ha => exact .inl ⟨rest, ha⟩
  | _ => exact absurd ht hs

/-- Settles O56, flag by flag: EQ, ERR, WBUSY set and cleared, BUSY rising and falling. -/
theorem flagsChangeOnlyByTheirWriters : Obligations.FlagsChangeOnlyByTheirWriters := fun _ _ h =>
  ⟨step_eq h, step_err h, step_wbusy_rises h, step_wbusy_falls h, step_busy_rises h, step_busy_falls h⟩

end Sys2Proof.Machine
end

section
/-! Views of a container (20_memory.md R36): elements of two widths over the same bytes. -/

namespace Sys2Proof.Machine

/-- CGET of an element that exists completes with the element in DATA (40_container.md R69). -/
theorem exec_cget_of_elemExists {s : State} {c : Fin 4} {a : ViewWidth} {idx : Nat} (h : elemExists a idx = true) :
    exec (.cget c (.of a) idx) s = .next (s.accept.setData (element (s.cont.get c).B a idx)) :=
  if_pos h

/-- The even 64-bit element is the low half of the 128-bit element over the same bytes. -/
theorem element_w64_even (v : Val) (i : Nat) :
    (element v .w64 (2 * i)).toNat = (element v .w128 i).toNat % 2 ^ 64 := by
  have hpos : 64 * (2 * i) = 128 * i := by omega
  simp only [element_toNat, ViewWidth.bits, hpos]
  rw [Nat.mod_mod_of_dvd _ (Nat.pow_dvd_pow 2 (by decide))]

/-- The odd 64-bit element is the high half of the 128-bit element over the same bytes. -/
theorem element_w64_odd (v : Val) (i : Nat) :
    (element v .w64 (2 * i + 1)).toNat = (element v .w128 i).toNat / 2 ^ 64 := by
  have hpos : 64 * (2 * i + 1) = 128 * i + 64 := by omega
  have hsplit : 2 ^ 128 = 2 ^ 64 * 2 ^ 64 := by decide
  simp only [element_toNat, ViewWidth.bits, hpos]
  rw [Nat.pow_add, ← Nat.div_div_eq_div_mul, hsplit, Nat.mod_mul_right_div_self]

/-- Settles O14: the three CGETs complete, and the 64-bit elements are the halves of the 128-bit one. -/
theorem narrowViewsAliasTheWideView : Obligations.NarrowViewsAliasTheWideView := by
  intro s c i hi
  have heven : elemExists .w64 (2 * i) = true := (elemExists_iff_lt _ _).2 (by simp only [ViewWidth.bits]; omega)
  have hodd : elemExists .w64 (2 * i + 1) = true := (elemExists_iff_lt _ _).2 (by simp only [ViewWidth.bits]; omega)
  have hwide : elemExists .w128 i = true := (elemExists_iff_lt _ _).2 hi
  exact ⟨_, _, _, exec_cget_of_elemExists heven, exec_cget_of_elemExists hodd, exec_cget_of_elemExists hwide,
    element_w64_even _ _, element_w64_odd _ _⟩

end Sys2Proof.Machine
end

section
/-! Stores of other agents (20_memory.md R44): what a store and P_HOST_ORDER do, how long a byte stays any value for a run,
and how long a store stays unordered. -/

namespace Sys2Proof.Machine

open Sys2Proof.Spec

/-! ### The turns of the other agents -/

theorem step_of_store {s : State} {a : Word} {b : Byte} {rest : List Turn} (h : s.agenda = .store a b :: rest) :
    step s = .next (storeByte a b (s.setAgenda rest)) := by
  unfold step
  rw [h]

theorem step_of_order {s : State} {rest : List Turn} (h : s.agenda = .order :: rest) :
    step s = .next (orderStores (s.setAgenda rest)) := by
  unfold step
  rw [h]

/-- A host write of a slot is that slot's write (43_host_interface.md R106). -/
theorem step_of_hostWrites {s : State} {r : Reg} {v : Word} {rest : List Turn} (h : hostWrites s r.offset v rest) :
    step s = writeReg r v (s.setAgenda rest) := by
  have ha : s.agenda = .host (.write (s.platform.base + r.offset) 8 v) :: rest := h
  unfold step
  rw [ha]
  exact hostAccess_write_slot (s.setAgenda rest) r v

/-- An idle block executes the command a CMD write decodes to (R107). -/
theorem writeCmd_of_command {s : State} {v : Word} {i : Instr} (hidle : s.eng.phase = .idle)
    (hd : decode v = .command i) : writeCmd v s = exec i s.accept := by
  simp [writeCmd, (State.busy_false_iff s).2 hidle, hd]

/-! ### Marked bytes -/

/-- A store to the buffer of the run in progress marks the byte. -/
theorem Engine.noteStore_of_inBuffer {e : Engine} {a : Nat} (hb : e.phase ≠ .idle) (hin : e.op.inBuffer a = true) :
    e.noteStore a = { e with raced := a :: e.raced } :=
  if_pos ⟨hb, hin⟩

/-- With no run in progress there is no byte to mark. -/
theorem Engine.noteStore_of_idle {e : Engine} (a : Nat) (hidle : e.phase = .idle) : e.noteStore a = e :=
  if_neg fun h => h.1 hidle

/-- A store unmarks no byte. -/
theorem Engine.mem_raced_noteStore {e : Engine} {x : Nat} (a : Nat) (hx : x ∈ e.raced) : x ∈ (e.noteStore a).raced := by
  rcases Engine.noteStore_cases e a with heng | ⟨-, heng⟩ <;> rw [heng]
  · exact hx
  · exact List.mem_cons_of_mem a hx

/-- The engine unmarks no byte while its run goes on. -/
theorem engineStep_raced {s : State} (hb : (engineStep s).eng.phase ≠ .idle) :
    (engineStep s).eng.raced = s.eng.raced := by
  have h := engineStep_cases s
  generalize engineStep s = t at h hb
  cases h with
  | idle _ => rfl
  | goesOn e n _ _ _ _ hraced => exact hraced
  | aborts addr n _ _ => exact absurd rfl hb
  | completes _ => exact absurd rfl hb

/-- A store to the buffer of a running HASH reaches memory and marks the byte. -/
theorem storeByte_marks {s : State} {a : Word} (b : Byte) (hb : s.eng.phase ≠ .idle)
    (hin : s.eng.op.inBuffer a.toNat = true) (hmem : s.mem.wf = true) :
    (storeByte a b s).mem.read a.toNat = b ∧ (storeByte a b s).eng.phase ≠ .idle ∧
      a.toNat ∈ (storeByte a b s).eng.raced := by
  refine ⟨Memory.read_write_same _ _ _ hmem, by rwa [storeByte_phase], ?_⟩
  show a.toNat ∈ (s.eng.noteStore a.toNat).raced
  rw [Engine.noteStore_of_inBuffer hb hin]
  exact List.mem_cons_self

/-- A marked byte stays marked for the rest of the run. -/
theorem step_keeps_raced {s t : State} {x : Nat} (hs : s.eng.phase ≠ .idle) (hx : x ∈ s.eng.raced)
    (h : step s = .next t) (ht : t.eng.phase ≠ .idle) : x ∈ t.eng.raced := by
  cases step_cases h with
  | engine rest _ =>
    rw [engineStep_raced ht]
    exact hx
  | passes turn rest _ => exact hx
  | reads r rest _ => exact hx
  | writes r v rest t _ hw =>
    rcases writeCase_eng hw with hsame | ⟨-, hidle, -⟩
    · rw [hsame]
      exact hx
    · exact absurd hidle hs
  | stores a b rest _ => exact Engine.mem_raced_noteStore a.toNat hx
  | orders rest _ => exact hx
  | resets rest _ => exact absurd rfl ht

theorem isAnyValue_of_raced {s : State} {x : Nat} (hx : x ∈ s.eng.raced) : isAnyValue s x = true := by
  simp [isAnyValue, hx]

/-! ### Stores still to come -/

/-- An engine turn leaves the look-ahead one step fewer. -/
theorem mem_storesWhileBusy_engine_cons {n addr : Nat} {rest : List Turn} (hn : n ≠ 0)
    (h : addr ∈ storesWhileBusy (n - 1) rest) : addr ∈ storesWhileBusy n (.engine :: rest) := by
  simpa [storesWhileBusy, hn] using h

/-- Any other turn that ends no run leaves the look-ahead as it is. -/
theorem mem_storesWhileBusy_cons {n addr : Nat} {x : Turn} {rest : List Turn} (hn : n ≠ 0) (hx : endsNoRun x)
    (hne : x ≠ .engine) (h : addr ∈ storesWhileBusy n rest) : addr ∈ storesWhileBusy n (x :: rest) := by
  obtain ⟨hwait, hreset⟩ := hx
  cases x with
  | host access => simpa [storesWhileBusy, hn] using h
  | engine => exact absurd rfl hne
  | wait => exact absurd rfl hwait
  | store a b => simpa [storesWhileBusy, hn] using .inr h
  | order => simpa [storesWhileBusy, hn] using h
  | reset => exact absurd rfl hreset

/-- The look-ahead finds a store behind turns that end no run, as long as fewer than `n` of them are the engine's. -/
theorem mem_storesWhileBusy (a : Word) (b : Byte) (rest : List Turn) {pre : List Turn} {n : Nat}
    (hpre : ∀ x ∈ pre, endsNoRun x) (hn : pre.count .engine < n) :
    a.toNat ∈ storesWhileBusy n (pre ++ .store a b :: rest) := by
  have hn0 : n ≠ 0 := by omega
  induction pre generalizing n with
  | nil => simp [storesWhileBusy, hn0]
  | cons x pre ih =>
    obtain ⟨hx, hrest⟩ := List.forall_mem_cons.1 hpre
    by_cases he : x = .engine
    · subst he
      rw [List.count_cons_self] at hn
      exact mem_storesWhileBusy_engine_cons hn0 (ih hrest (by omega) (by omega))
    · rw [List.count_cons_of_ne he] at hn
      exact mem_storesWhileBusy_cons hn0 hx he (ih hrest hn hn0)

theorem isAnyValue_of_mem_storesWhileBusy {s : State} {x : Nat}
    (hx : x ∈ storesWhileBusy (s.eng.stepsLeft - 1) s.agenda) : isAnyValue s x = true := by
  simp [isAnyValue, hx]

/-- Settles O37: the mark (`storeByte_marks`, `step_keeps_raced`), the look-ahead (`mem_storesWhileBusy`), and the free
value the oracle answers for either. -/
theorem storeDuringARunMakesTheByteAnyValue : Obligations.StoreDuringARunMakesTheByteAnyValue := by
  refine ⟨fun s a b rest hb ha hlo hhi hmem => ?_, fun s t x => step_keeps_raced, fun s x => isAnyValue_of_raced,
    fun s pre a b rest ha hpre hn => ?_, fun s addr j hany => if_pos hany⟩
  · have hin : s.eng.op.inBuffer a.toNat = true := decide_eq_true ⟨hlo, hhi⟩
    exact ⟨_, step_of_store ha, storeByte_marks b hb hin hmem⟩
  · apply isAnyValue_of_mem_storesWhileBusy
    rw [ha]
    exact mem_storesWhileBusy a b rest hpre hn

/-! ### Unordered stores -/

/-- No command orders a store. -/
theorem exec_unordered {i : Instr} {s t : State} (h : exec i s = .next t) : t.unordered = s.unordered := by
  cases exec_next h <;> simp

/-- No host write of a slot orders a store. -/
theorem writeCase_unordered {s t : State} {v : Word} {r : Reg} (h : WriteCase s v r t) : t.unordered = s.unordered := by
  cases h with
  | command i t _ _ he => exact exec_unordered he
  | _ => simp

@[simp] theorem engineStep_unordered (s : State) : (engineStep s).unordered = s.unordered := by
  obtain ⟨-, -, -, hunordered, -⟩ := engineStep_frame s
  exact hunordered

/-- With no run in progress, a store writes its byte and notes its address, and nothing else. -/
theorem storeByte_of_idle {s : State} (a : Word) (b : Byte) (hidle : s.eng.phase = .idle) :
    storeByte a b s = { s with mem := s.mem.write a.toNat b, unordered := a.toNat :: s.unordered } := by
  unfold storeByte
  rw [Engine.noteStore_of_idle _ hidle]
  rfl

/-- An unordered store stays so under every turn but P_HOST_ORDER. -/
theorem step_keeps_unordered {s t : State} {x : Nat} (hx : x ∈ s.unordered)
    (hne : ∀ rest, s.agenda ≠ .order :: rest) (h : step s = .next t) : x ∈ t.unordered := by
  cases step_cases h with
  | engine rest _ =>
    rw [engineStep_unordered]
    exact hx
  | passes turn rest _ => exact hx
  | reads r rest _ => exact hx
  | writes r v rest t _ hw =>
    rw [writeCase_unordered hw]
    exact hx
  | stores a b rest _ => exact List.mem_cons_of_mem a.toNat hx
  | orders rest ha => exact absurd ha (hne rest)
  | resets rest _ => exact hx

/-- A HASH accepted with every store ordered starts with no raced byte. -/
theorem exec_hash_raced {s t : State} {d : Fin 4} {w : ProcWidth} {r : ViewSel} {aln : Bool}
    (hidle : s.eng.phase = .idle) (hord : s.unordered = []) (h : exec (.hash d w r aln) s = .next t)
    (hb : t.eng.phase ≠ .idle) : t.eng.raced = [] := by
  cases exec_next h with
  | fails i e => exact absurd hidle hb
  | hash d w a aln _ _ _ =>
    show s.unordered.filter _ = []
    rw [hord]
    rfl

/-- A HASH written to an idle block with every store ordered starts, if at all, with no raced byte. -/
theorem step_hash_raced {s : State} {v : Word} {rest : List Turn} {d : Fin 4} {w : ProcWidth} {r : ViewSel} {aln : Bool}
    (hidle : s.eng.phase = .idle) (hord : s.unordered = []) (hwrite : hostWrites s 0x00 v rest)
    (hd : decode v = .command (.hash d w r aln)) :
    ∃ t, step s = .next t ∧ (t.eng.phase ≠ .idle → t.eng.raced = []) := by
  obtain ⟨t, ht, -⟩ := exec_cases (.hash d w r aln) (s.setAgenda rest).accept
  refine ⟨t, ?_, exec_hash_raced (s := (s.setAgenda rest).accept) hidle hord ht⟩
  calc step s = writeCmd v (s.setAgenda rest) := step_of_hostWrites (r := .cmd) hwrite
    _ = exec (.hash d w r aln) (s.setAgenda rest).accept := writeCmd_of_command hidle hd
    _ = .next t := ht

/-- Settles O38: the store of an idle block, what keeps a store unordered, and P_HOST_ORDER, which empties the list a HASH
accepted after it takes its raced bytes from. -/
theorem storesStayUnorderedUntilTheHostOrdersThem : Obligations.StoresStayUnorderedUntilTheHostOrdersThem := by
  refine ⟨fun s a b rest hidle ha hmem => ?_, fun s t x => step_keeps_unordered, fun s rest => step_of_order,
    fun s rest v d w r aln hidle ha hd => ?_⟩
  · refine ⟨_, step_of_store ha, ?_⟩
    rw [storeByte_of_idle (s := s.setAgenda rest) a b hidle]
    exact ⟨rfl, Memory.wf_write _ _ _ hmem a.isLt, Memory.read_write_same _ _ _ hmem,
      fun x hx => Memory.read_write_ne _ _ hx⟩
  · obtain ⟨u, hu, hraced⟩ := step_hash_raced (rest := rest) (s := orderStores
      (s.setAgenda (.host (.write (s.platform.base + 0x00) 8 v) :: rest))) hidle rfl rfl hd
    exact ⟨_, u, step_of_order ha, hu, hraced⟩

end Sys2Proof.Machine
end

section
/-! Decoding and encoding (30_encoding.md R50 to R54): the fields of a CMD write, what each row of Decode accepts, that
a write decodes to exactly the well-formed command it is the encoding of, and the rows of the opcode table. -/

namespace Sys2Proof

/-! ### The fields of a CMD write (R50) -/

/-- A CMD write has these seven fields, and zeros above them. -/
structure HasFields (v : Word) (op ca cb wa wp aln idx : Nat) : Prop where
  op : field v 0 4 = op
  ca : field v 4 2 = ca
  cb : field v 6 2 = cb
  wa : field v 8 3 = wa
  wp : field v 11 2 = wp
  aln : field v 13 1 = aln
  idx : field v 14 4 = idx
  reserved : field v 18 14 = 0
  upper : field v 32 32 = 0

/-- The CMD write that fields are packed into has those fields, when each fits its bits. -/
theorem hasFields_packFields {op ca cb wa wp aln idx : Nat} (hop : op < 16 := by decide) (hca : ca < 4 := by decide)
    (hcb : cb < 4 := by decide) (hwa : wa < 8 := by decide) (hwp : wp < 4 := by decide) (haln : aln < 2 := by decide)
    (hidx : idx < 16 := by decide) :
    HasFields ((packFields op ca cb wa wp aln idx).setWidth 64) op ca cb wa wp aln idx := by
  constructor <;> rw [field_eq, packFields_toNat hop hca hcb hwa hwp haln hidx] <;> omega

/-- A CMD write is the word its fields pack to. -/
theorem HasFields.packFields_eq {v : Word} {op ca cb wa wp aln idx : Nat} (h : HasFields v op ca cb wa wp aln idx) :
    ((packFields op ca cb wa wp aln idx).setWidth 64 : Word) = v :=
  packFields_of_fields h.op h.ca h.cb h.wa h.wp h.aln h.idx h.reserved h.upper

/-- A container field names the container with its number. -/
theorem containerOf_eq_iff {v : Word} {lo : Nat} {c : Fin 4} : containerOf v lo = c ↔ field v lo 2 = c.val := by
  rw [field_eq_containerOf, Fin.ext_iff]

/-- The `aln` bit is the one its field holds. -/
theorem getLsbD_13_eq_iff {v : Word} {aln : Bool} : v.getLsbD 13 = aln ↔ field v 13 1 = aln.toNat := by
  rw [field_aln]
  cases v.getLsbD 13 <;> cases aln <;> decide

/-- A view code fits its field. -/
theorem ViewSel.code_lt (a : ViewSel) : a.code < 8 := by
  cases a with
  | tag => decide
  | of a => cases a <;> decide

/-- A processing-width code fits its field. -/
theorem ProcWidth.code_lt (w : ProcWidth) : w.code < 4 := by cases w <;> decide

/-! ### What each row of Decode accepts (R54) -/

/-- A check of Decode lets a command through only when it does not apply. -/
theorem ite_illegal_eq_command {p : Prop} [Decidable p] {c : IllegalCause} {d : Decoded} {i : Instr} :
    (if p then .illegal c else d) = .command i ↔ ¬p ∧ d = .command i := by
  by_cases h : p <;> simp [h]

/-- A view field lets a command through when some view has its code. -/
theorem withView_eq_command {n : Nat} {k : ViewSel → Decoded} {i : Instr} :
    withView n k = .command i ↔ ∃ a : ViewSel, n = a.code ∧ k a = .command i := by
  unfold withView
  constructor
  · intro h
    split at h
    next a ha => exact ⟨a, (viewSelOfCode_eq_some.1 ha).symm, h⟩
    next => cases h
  · rintro ⟨a, rfl, h⟩
    rw [viewSelOfCode_eq_some.2 rfl]
    exact h

/-- The row of Decode an opcode chooses. -/
def decodeRow (op : Nat) (v : Word) : Decoded :=
  match op with
  | 0 => if field v 4 28 ≠ 0 then .illegal .unusedField else .command .nop
  | 1 => decodeHash v
  | 2 => decodeCzero v
  | 3 => decodeCcopy v
  | 4 => decodeCget v
  | 5 => decodeCput v
  | 6 => decodeCeq v
  | _ => .illegal .reservedOpcode

/-- Decode is the check of the bits no command uses, then the row of the opcode. -/
theorem decode_eq_command {v : Word} {i : Instr} : decode v = .command i ↔
    field v 32 32 = 0 ∧ field v 18 14 = 0 ∧ decodeRow (field v 0 4) v = .command i := by
  have hdecode : decode v = if field v 32 32 ≠ 0 then .illegal .upperHalf
    else if field v 18 14 ≠ 0 then .illegal .reservedBits else decodeRow (field v 0 4) v := rfl
  rw [hdecode, ite_illegal_eq_command, ite_illegal_eq_command, not_not, not_not]

/-! Each row, with the checks above passed, accepts a write exactly when the write has the fields of one of the row's
commands. -/
section Rows

variable {v : Word} {i : Instr} (hup : field v 32 32 = 0) (hres : field v 18 14 = 0)
include hup hres

/-- The check of bits [31:4] is that of every field but the opcode. -/
theorem decodeRow_zero_eq_command (hop : field v 0 4 = 0) : decodeRow 0 v = .command i ↔
    i = .nop ∧ HasFields v 0 0 0 0 0 0 0 := by
  rw [decodeRow, ite_illegal_eq_command, not_not]
  constructor
  · rintro ⟨hz, h⟩
    cases h
    rw [field_eq] at hz
    refine ⟨rfl, hop, ?_, ?_, ?_, ?_, ?_, ?_, hres, hup⟩ <;> rw [field_eq] <;> omega
  · rintro ⟨rfl, h⟩
    rw [← h.packFields_eq]
    decide

theorem decodeHash_eq_command (hop : field v 0 4 = 1) : decodeHash v = .command i ↔
    ∃ d w a aln, i = .hash d w (.of a) aln ∧ HasFields v 1 d.val 0 a.code w.code aln.toNat 0 := by
  simp only [decodeHash, ite_illegal_eq_command, withView_eq_command, not_or, not_not]
  constructor
  · rintro ⟨⟨hcb, hidx⟩, r, hr, htag, h⟩
    cases r with
    | tag => exact absurd rfl htag
    | of a =>
      split at h
      next w hw =>
        cases h
        exact ⟨_, w, a, _, rfl, hop, rfl, hcb, hr, (procWidthOfCode_eq_some.1 hw).symm, field_aln v, hidx, hres, hup⟩
      next => cases h
  · rintro ⟨d, w, a, aln, rfl, h⟩
    refine ⟨⟨h.cb, h.idx⟩, .of a, h.wa, nofun, ?_⟩
    rw [procWidthOfCode_eq_some.2 h.wp.symm, containerOf_eq_iff.2 h.ca, getLsbD_13_eq_iff.2 h.aln]

theorem decodeCzero_eq_command (hop : field v 0 4 = 2) : decodeCzero v = .command i ↔
    ∃ d a, i = .czero d a ∧ HasFields v 2 d.val 0 a.code 0 0 0 := by
  simp only [decodeCzero, ite_illegal_eq_command, withView_eq_command, not_or, not_not]
  constructor
  · rintro ⟨⟨hcb, hwp, haln, hidx⟩, a, ha, h⟩
    cases h
    exact ⟨_, a, rfl, hop, rfl, hcb, ha, hwp, haln, hidx, hres, hup⟩
  · rintro ⟨d, a, rfl, h⟩
    exact ⟨⟨h.cb, h.wp, h.aln, h.idx⟩, a, h.wa, by rw [containerOf_eq_iff.2 h.ca]⟩

theorem decodeCcopy_eq_command (hop : field v 0 4 = 3) : decodeCcopy v = .command i ↔
    ∃ d src a, i = .ccopy d src a ∧ HasFields v 3 d.val src.val a.code 0 0 0 := by
  simp only [decodeCcopy, ite_illegal_eq_command, withView_eq_command, not_or, not_not]
  constructor
  · rintro ⟨⟨hwp, haln, hidx⟩, a, ha, h⟩
    cases h
    exact ⟨_, _, a, rfl, hop, rfl, rfl, ha, hwp, haln, hidx, hres, hup⟩
  · rintro ⟨d, src, a, rfl, h⟩
    exact ⟨⟨h.wp, h.aln, h.idx⟩, a, h.wa, by rw [containerOf_eq_iff.2 h.ca, containerOf_eq_iff.2 h.cb]⟩

theorem decodeCget_eq_command (hop : field v 0 4 = 4) : decodeCget v = .command i ↔
    ∃ src a idx, i = .cget src a idx ∧ HasFields v 4 src.val 0 a.code 0 0 idx := by
  simp only [decodeCget, ite_illegal_eq_command, withView_eq_command, not_or, not_not]
  constructor
  · rintro ⟨⟨hcb, hwp, haln⟩, a, ha, h⟩
    cases h
    exact ⟨_, a, _, rfl, hop, rfl, hcb, ha, hwp, haln, rfl, hres, hup⟩
  · rintro ⟨src, a, idx, rfl, h⟩
    exact ⟨⟨h.cb, h.wp, h.aln⟩, a, h.wa, by rw [containerOf_eq_iff.2 h.ca, h.idx]⟩

theorem decodeCput_eq_command (hop : field v 0 4 = 5) : decodeCput v = .command i ↔
    ∃ d a idx, i = .cput d a idx ∧ HasFields v 5 d.val 0 a.code 0 0 idx := by
  simp only [decodeCput, ite_illegal_eq_command, withView_eq_command, not_or, not_not]
  constructor
  · rintro ⟨⟨hcb, hwp, haln⟩, a, ha, h⟩
    cases h
    exact ⟨_, a, _, rfl, hop, rfl, hcb, ha, hwp, haln, rfl, hres, hup⟩
  · rintro ⟨d, a, idx, rfl, h⟩
    exact ⟨⟨h.cb, h.wp, h.aln⟩, a, h.wa, by rw [containerOf_eq_iff.2 h.ca, h.idx]⟩

theorem decodeCeq_eq_command (hop : field v 0 4 = 6) : decodeCeq v = .command i ↔
    ∃ x y, i = .ceq x y ∧ HasFields v 6 x.val y.val 0 0 0 0 := by
  simp only [decodeCeq, ite_illegal_eq_command, not_or, not_not]
  constructor
  · rintro ⟨⟨hwa, hwp, haln, hidx⟩, h⟩
    cases h
    exact ⟨_, _, rfl, hop, rfl, rfl, hwa, hwp, haln, hidx, hres, hup⟩
  · rintro ⟨x, y, rfl, h⟩
    exact ⟨⟨h.wa, h.wp, h.aln, h.idx⟩, by rw [containerOf_eq_iff.2 h.ca, containerOf_eq_iff.2 h.cb]⟩

end Rows

/-! ### Decode and the encoding (R50 to R54) -/

/-- A CMD write that decodes is the encoding of a well-formed command. -/
theorem wellFormed_and_cmdValue_of_decode {v : Word} {i : Instr} (h : decode v = .command i) :
    i.wellFormed = true ∧ cmdValue i = v := by
  obtain ⟨hup, hres, h⟩ := decode_eq_command.1 h
  unfold decodeRow at h
  split at h
  next hop =>
    obtain ⟨rfl, hf⟩ := (decodeRow_zero_eq_command hup hres hop).1 h
    exact ⟨rfl, hf.packFields_eq⟩
  next hop =>
    obtain ⟨d, w, a, aln, rfl, hf⟩ := (decodeHash_eq_command hup hres hop).1 h
    exact ⟨rfl, hf.packFields_eq⟩
  next hop =>
    obtain ⟨d, a, rfl, hf⟩ := (decodeCzero_eq_command hup hres hop).1 h
    exact ⟨rfl, hf.packFields_eq⟩
  next hop =>
    obtain ⟨d, src, a, rfl, hf⟩ := (decodeCcopy_eq_command hup hres hop).1 h
    exact ⟨rfl, hf.packFields_eq⟩
  next hop =>
    obtain ⟨src, a, idx, rfl, hf⟩ := (decodeCget_eq_command hup hres hop).1 h
    exact ⟨decide_eq_true (hf.idx ▸ BitVec.isLt _), hf.packFields_eq⟩
  next hop =>
    obtain ⟨d, a, idx, rfl, hf⟩ := (decodeCput_eq_command hup hres hop).1 h
    exact ⟨decide_eq_true (hf.idx ▸ BitVec.isLt _), hf.packFields_eq⟩
  next hop =>
    obtain ⟨x, y, rfl, hf⟩ := (decodeCeq_eq_command hup hres hop).1 h
    exact ⟨rfl, hf.packFields_eq⟩
  next => cases h

/-- A CMD write with these fields decodes as the row of its opcode says. -/
theorem HasFields.decode_of_row {v : Word} {i : Instr} {op ca cb wa wp aln idx : Nat}
    (h : HasFields v op ca cb wa wp aln idx) (hrow : decodeRow op v = .command i) : decode v = .command i :=
  decode_eq_command.2 ⟨h.upper, h.reserved, h.op.symm ▸ hrow⟩

/-- The encoding of a well-formed command decodes to it. -/
theorem decode_cmdValue {i : Instr} (hi : i.wellFormed = true) : decode (cmdValue i) = .command i := by
  cases i with
  | nop =>
    have h : HasFields (cmdValue .nop) 0 0 0 0 0 0 0 := hasFields_packFields
    exact h.decode_of_row ((decodeRow_zero_eq_command h.upper h.reserved h.op).2 ⟨rfl, h⟩)
  | hash d w r aln =>
    cases r with
    | tag => cases hi
    | of a =>
      have h : HasFields (cmdValue (.hash d w (.of a) aln)) 1 d.val 0 a.code w.code aln.toNat 0 :=
        hasFields_packFields (hca := d.isLt) (hwa := (ViewSel.of a).code_lt) (hwp := w.code_lt) (haln := aln.toNat_lt)
      exact h.decode_of_row ((decodeHash_eq_command h.upper h.reserved h.op).2 ⟨d, w, a, aln, rfl, h⟩)
  | czero d a =>
    have h : HasFields (cmdValue (.czero d a)) 2 d.val 0 a.code 0 0 0 :=
      hasFields_packFields (hca := d.isLt) (hwa := a.code_lt)
    exact h.decode_of_row ((decodeCzero_eq_command h.upper h.reserved h.op).2 ⟨d, a, rfl, h⟩)
  | ccopy d src a =>
    have h : HasFields (cmdValue (.ccopy d src a)) 3 d.val src.val a.code 0 0 0 :=
      hasFields_packFields (hca := d.isLt) (hcb := src.isLt) (hwa := a.code_lt)
    exact h.decode_of_row ((decodeCcopy_eq_command h.upper h.reserved h.op).2 ⟨d, src, a, rfl, h⟩)
  | cget src a idx =>
    have h : HasFields (cmdValue (.cget src a idx)) 4 src.val 0 a.code 0 0 idx :=
      hasFields_packFields (hca := src.isLt) (hwa := a.code_lt) (hidx := of_decide_eq_true hi)
    exact h.decode_of_row ((decodeCget_eq_command h.upper h.reserved h.op).2 ⟨src, a, idx, rfl, h⟩)
  | cput d a idx =>
    have h : HasFields (cmdValue (.cput d a idx)) 5 d.val 0 a.code 0 0 idx :=
      hasFields_packFields (hca := d.isLt) (hwa := a.code_lt) (hidx := of_decide_eq_true hi)
    exact h.decode_of_row ((decodeCput_eq_command h.upper h.reserved h.op).2 ⟨d, a, idx, rfl, h⟩)
  | ceq x y =>
    have h : HasFields (cmdValue (.ceq x y)) 6 x.val y.val 0 0 0 0 :=
      hasFields_packFields (hca := x.isLt) (hcb := y.isLt)
    exact h.decode_of_row ((decodeCeq_eq_command h.upper h.reserved h.op).2 ⟨x, y, rfl, h⟩)

/-- Settles O1: the encoding has the fields its command was packed from, and the row of its opcode reads the command
back from them (`decode_cmdValue`). -/
theorem decodeOfEncodeIsTheCommand : Obligations.DecodeOfEncodeIsTheCommand := fun _ => decode_cmdValue

/-- Settles O2: the row a decoded write was accepted by fixes every one of its fields, and a write is what its fields
pack to (`wellFormed_and_cmdValue_of_decode`). -/
theorem decodedWriteIsTheEncodingOfItsCommand : Obligations.DecodedWriteIsTheEncodingOfItsCommand :=
  fun _ _ => wellFormed_and_cmdValue_of_decode

/-! ### The opcode table (R53) -/

/-- The encoding of a well-formed command matches the command's row. -/
theorem row_matchesWord_encode (i : Instr) : Laws.EncodeMatchesRow.Statement i := by
  cases i with
  | nop => exact Laws.EncodeMatchesRow.nop
  | hash d w r aln => exact Laws.EncodeMatchesRow.hash d w r aln
  | czero d a => exact Laws.EncodeMatchesRow.czero d a
  | ccopy d src a => exact Laws.EncodeMatchesRow.ccopy d src a
  | cget src a idx => exact Laws.EncodeMatchesRow.cget src a idx
  | cput d a idx => exact Laws.EncodeMatchesRow.cput d a idx
  | ceq x y => exact Laws.EncodeMatchesRow.ceq x y

/-- The opcode table: the rows of one command each. -/
def opcodeTable : List TableRow :=
  [Instr.row .nop, Instr.row (.hash 0 .w128 (.of .w32) false), Instr.row (.czero 0 .tag), Instr.row (.ccopy 0 0 .tag),
    Instr.row (.cget 0 .tag 0), Instr.row (.cput 0 .tag 0), Instr.row (.ceq 0 0)]

/-- The row of a command does not depend on its operands. -/
theorem row_mem_opcodeTable (i : Instr) : i.row ∈ opcodeTable := by
  cases i <;> simp [opcodeTable, Instr.row]

/-- Every row fixes the four opcode bits, and its pattern is its opcode. -/
theorem opcodeTable_fixes_opcode :
    ∀ r ∈ opcodeTable, r.mask &&& 0xF#32 = 0xF#32 ∧ r.pattern &&& 0xF#32 = r.pattern := by decide

/-- The rows have different opcodes. -/
theorem opcodeTable_pattern_inj : ∀ r ∈ opcodeTable, ∀ r' ∈ opcodeTable, r.pattern = r'.pattern → r = r' := by decide

/-- A word that matches a row has the row's pattern in its opcode bits. -/
theorem opcode_of_matchesWord {r : TableRow} {word : BitVec 32} (hr : r ∈ opcodeTable) (h : r.matchesWord word = true) :
    word &&& 0xF#32 = r.pattern := by
  obtain ⟨hmask, hpattern⟩ := opcodeTable_fixes_opcode r hr
  calc word &&& 0xF#32 = word &&& r.mask &&& 0xF#32 := by rw [BitVec.and_assoc, hmask]
    _ = r.pattern &&& 0xF#32 := by rw [eq_of_beq h]
    _ = r.pattern := hpattern

/-- A word matches one row at most. -/
theorem row_eq_of_matchesWord {i j : Instr} {word : BitVec 32} (hi : i.row.matchesWord word = true)
    (hj : j.row.matchesWord word = true) : i.row = j.row :=
  opcodeTable_pattern_inj _ (row_mem_opcodeTable i) _ (row_mem_opcodeTable j)
    ((opcode_of_matchesWord (row_mem_opcodeTable i) hi).symm.trans (opcode_of_matchesWord (row_mem_opcodeTable j) hj))

/-- The command word is the lower half of the CMD write. -/
@[simp] theorem setWidth_cmdValue (i : Instr) : (cmdValue i).setWidth 32 = encode i := by
  simp [cmdValue]

/-- Settles O3: a decoded write is an encoding (O2), which matches its command's row, and the opcode bits tell the rows
apart. -/
theorem decodedWordMatchesExactlyItsTableRow : Obligations.DecodedWordMatchesExactlyItsTableRow := by
  intro v i h
  obtain ⟨hwf, rfl⟩ := wellFormed_and_cmdValue_of_decode h
  have hrow : i.row.matchesWord ((cmdValue i).setWidth 32) = true := by
    rw [setWidth_cmdValue]
    exact row_matchesWord_encode i hwf
  exact ⟨hrow, fun j hj => row_eq_of_matchesWord hj hrow⟩

/-- Settles O4: each word runs through the decoder. -/
theorem sampleWordsOfEveryRowDecode : Obligations.SampleWordsOfEveryRowDecode := by
  unfold Obligations.SampleWordsOfEveryRowDecode
  decide

end Sys2Proof
end

section
/-! The container commands (40_container.md R61 to R73): which bytes an element is made of and which a CPUT writes, what
each command answers, and what all seven leave unchanged. -/

namespace Sys2Proof.Machine

open Sys2Proof.Spec

/-! ### Bytes -/

@[simp] theorem byteAt_zero {n : Nat} (j : Nat) : byteAt (0#n) j = 0x00#8 := by
  simp [byteAt]

/-- CEQ's comparison is byte by byte (R72). -/
theorem sameBytes_iff_byteAt (x y : Val) : sameBytes x y = true ↔ ∀ j < 64, byteAt x j = byteAt y j := by
  simp [sameBytes]

/-- CEQ's comparison is equality of the 64-byte values. -/
theorem sameBytes_iff_eq (x y : Val) : sameBytes x y = true ↔ x = y := by
  rw [sameBytes_iff_byteAt]
  exact ⟨val_ext, fun h _ _ => by rw [h]⟩

/-! ### Elements of a view (R63, R68, R71) -/

/-- Every byte of an element that exists is a byte of the value. -/
theorem byte_lt_of_elemExists {a : ViewWidth} {idx j : Nat} (h : elemExists a idx = true) (hj : j < a.bytes) :
    a.bytes * idx + j < 64 := by
  have hend := (elemExists_iff a idx).1 h
  rw [Nat.mul_succ] at hend
  omega

/-- Two elements of one view share no byte: a byte of the one is before or after the other. -/
theorem byte_outside_of_ne {a : ViewWidth} {k idx j : Nat} (hne : k ≠ idx) (hj : j < a.bytes) :
    a.bytes * k + j < a.bytes * idx ∨ a.bytes * idx + a.bytes ≤ a.bytes * k + j := by
  rcases Nat.lt_or_gt_of_ne hne with hlt | hgt
  · have hstart : a.bytes * (k + 1) ≤ a.bytes * idx := Nat.mul_le_mul_left _ hlt
    rw [Nat.mul_succ] at hstart
    omega
  · have hend : a.bytes * (idx + 1) ≤ a.bytes * k := Nat.mul_le_mul_left _ hgt
    rw [Nat.mul_succ] at hend
    omega

/-- Inside the element written, the bytes are the low bytes of the new value. -/
theorem byteAt_setElement_inside (v d : Val) {a : ViewWidth} {idx j : Nat} (h : elemExists a idx = true)
    (hj : j < a.bytes) : byteAt (setElement v a idx d) (a.bytes * idx + j) = byteAt d j := by
  rw [byteAt_setElement _ _ _ _ (byte_lt_of_elemExists h hj), if_pos (by omega), Nat.add_sub_cancel_left]

/-- Outside the element written, the bytes are as they were. -/
theorem byteAt_setElement_outside (v d : Val) {a : ViewWidth} {idx k : Nat} (hk : k < 64)
    (hout : k < a.bytes * idx ∨ a.bytes * idx + a.bytes ≤ k) : byteAt (setElement v a idx d) k = byteAt v k := by
  rw [byteAt_setElement _ _ _ _ hk, if_neg (by omega)]

/-- The element written reads as element 0 of the new value: its low bytes. -/
theorem element_setElement_same (v d : Val) {a : ViewWidth} {idx : Nat} (h : elemExists a idx = true) :
    element (setElement v a idx d) a idx = element d a 0 := by
  apply val_ext
  intro j hj
  rw [byteAt_element _ _ _ hj, byteAt_element _ _ _ hj]
  by_cases hin : j < a.bytes
  · rw [if_pos hin, if_pos hin, byteAt_setElement_inside _ _ h hin, Nat.mul_zero, Nat.zero_add]
  · rw [if_neg hin, if_neg hin]

/-- Every other element of the view reads as before. -/
theorem element_setElement_ne (v d : Val) {a : ViewWidth} {idx k : Nat} (hne : k ≠ idx) (hk : elemExists a k = true) :
    element (setElement v a idx d) a k = element v a k := by
  apply val_ext
  intro j hj
  rw [byteAt_element _ _ _ hj, byteAt_element _ _ _ hj]
  by_cases hin : j < a.bytes
  · rw [if_pos hin, if_pos hin,
      byteAt_setElement_outside _ _ (byte_lt_of_elemExists hk hin) (byte_outside_of_ne hne hin)]
  · rw [if_neg hin, if_neg hin]

/-- The element as the integer the statements name (R68). -/
theorem element_toNat_eq_elemInt (v : Val) (a : ViewWidth) (idx : Nat) : (element v a idx).toNat = elemInt v a idx :=
  element_toNat v a idx

/-- Element 0 as an integer: the low bits of the value (R68). -/
theorem element_zero_toNat (v : Val) (a : ViewWidth) : (element v a 0).toNat = v.toNat % 2 ^ a.bits := by
  rw [element_toNat, Nat.mul_zero, Nat.pow_zero, Nat.div_one]

/-! ### What the commands answer (R64 to R72) -/

/-- The container written reads back. -/
@[simp] theorem State.setCont_get_same (s : State) (c : Fin 4) (k : Container) : (s.setCont c k).cont.get c = k :=
  Quad.get_set_same _ _ _

/-- The other containers read as before. -/
theorem State.setCont_get_ne (s : State) {c d : Fin 4} (k : Container) (h : c ≠ d) :
    (s.setCont d k).cont.get c = s.cont.get c :=
  Quad.get_set_ne _ _ h

/-- Width resolution reads the tag alone (R62), so writing a container with the tag it has keeps every width. -/
theorem resolve_setCont_same (s : State) (a : ViewSel) {c : Fin 4} {k : Container} (h : k.T = (s.cont.get c).T) :
    resolve a ((s.setCont c k).cont.get c) = resolve a (s.cont.get c) := by
  rw [State.setCont_get_same]
  cases a with
  | of w => rfl
  | tag => exact h

section Indexed

variable {s : State} {c : Fin 4} {a : ViewSel} {idx : Nat}

/-- CGET of an element that exists, in the view of the resolved width `w`. -/
theorem exec_cget_of_resolve {w : ViewWidth} (hw : resolve a (s.cont.get c) = w) (h : idx < 512 / w.bits) :
    exec (.cget c a idx) s = .next (s.accept.setData (element (s.cont.get c).B w idx)) := by
  subst hw
  exact if_pos ((elemExists_iff_lt _ _).2 h)

/-- CPUT of an element that exists, of a named width or the tag's. -/
theorem exec_cput_of_lt (h : idx < 512 / (resolve a (s.cont.get c)).bits) :
    exec (.cput c a idx) s = .next (s.accept.setCont c
      { B := setElement (s.cont.get c).B (resolve a (s.cont.get c)) idx s.data, T := (s.cont.get c).T }) :=
  if_pos ((elemExists_iff_lt _ _).2 h)

end Indexed

/-- Settles O9: DATA is the element, whose bytes `byteAt_element` gives and whose integer `element_toNat` gives. -/
theorem cgetPutsTheElementZeroFilledIntoData : Obligations.CgetPutsTheElementZeroFilledIntoData := by
  intro s src a idx h
  have hexists := (elemExists_iff_lt _ _).2 h
  refine ⟨_, exec_cget_of_resolve rfl h, rfl, fun j hj => ?_, fun j hout hj => ?_, element_toNat_eq_elemInt _ _ _⟩
  · have hlt := byte_lt_of_elemExists hexists hj
    rw [State.setData_data, byteAt_element _ _ _ (by omega), if_pos hj]
  · rw [State.setData_data, byteAt_element _ _ _ hj, if_neg (by omega)]

/-- Settles O10: the container is replaced by one with the same tag, whose bytes inside and outside the element
`byteAt_setElement_inside` and `byteAt_setElement_outside` give. -/
theorem cputWritesTheElementFromDataAndNoOtherByte : Obligations.CputWritesTheElementFromDataAndNoOtherByte := by
  intro s d a idx h
  have hexists := (elemExists_iff_lt _ _).2 h
  refine ⟨_, exec_cput_of_lt h, rfl, ?_, fun j hj => ?_, fun k hk hout => ?_, fun c => State.setCont_get_ne _ _⟩
  · rw [State.setCont_get_same]
  · rw [State.setCont_get_same, byteAt_setElement_inside _ _ hexists hj]
  · rw [State.setCont_get_same, byteAt_setElement_outside _ _ hk hout]

/-- Settles O12: EQ is the comparison `sameBytes`. -/
theorem ceqSetsEqExactlyWhenTheBytesAreEqual : Obligations.CeqSetsEqExactlyWhenTheBytesAreEqual :=
  fun _ _ _ => ⟨_, rfl, rfl, sameBytes_iff_byteAt _ _, sameBytes_iff_eq _ _⟩

/-- Settles O13: CPUT keeps the tag, so CGET resolves the same width and reads the element that was put
(`element_setElement_same`); the other elements are `element_setElement_ne`. -/
theorem cgetAfterCputReadsWhatWasPut : Obligations.CgetAfterCputReadsWhatWasPut := by
  intro s c a idx h
  refine ⟨_, _, exec_cput_of_lt h,
    exec_cget_of_resolve (w := resolve a (s.cont.get c)) (resolve_setCont_same s.accept a rfl) h,
    ?_, fun k hne hk => ?_⟩
  · rw [State.setData_data, State.setCont_get_same, element_setElement_same _ _ ((elemExists_iff_lt _ _).2 h),
      element_zero_toNat]
  · rw [State.setCont_get_same, ← element_toNat_eq_elemInt, ← element_toNat_eq_elemInt,
      element_setElement_ne _ _ hne ((elemExists_iff_lt _ _).2 hk)]

/-- Settles O6: NOP is the acceptance, which clears ERR, and no more. -/
theorem nopClearsErrAndNothingElse : Obligations.NopClearsErrAndNothingElse := fun _ => rfl

/-- Settles O7: the destination is replaced by a container of zero bytes. -/
theorem czeroGivesZeroBytesAndTheResolvedTag : Obligations.CzeroGivesZeroBytesAndTheResolvedTag := by
  intro s d a
  refine ⟨_, rfl, rfl, fun j _ => ?_, congrArg Container.T (State.setCont_get_same _ _ _),
    fun c => State.setCont_get_ne _ _⟩
  rw [State.setCont_get_same, byteAt_zero]

/-- Settles O8: the destination is replaced by a container with the source's bytes, read before the write. -/
theorem ccopyGivesTheSourceBytesAndTheResolvedTag : Obligations.CcopyGivesTheSourceBytesAndTheResolvedTag := by
  intro s d src a
  refine ⟨_, rfl, rfl, ?_, congrArg Container.T (State.setCont_get_same _ _ _), fun c => State.setCont_get_ne _ _⟩
  rw [State.setCont_get_same]

/-! ### What the commands leave unchanged (R61, 60_exceptions.md R115) -/

/-- No command writes SRC, LEN or SEED, answers a host read or draws a free value. -/
theorem exec_keeps_operands {i : Instr} {s t : State} (h : exec i s = .next t) :
    t.src = s.src ∧ t.len = s.len ∧ t.seed = s.seed ∧ t.readLog = s.readLog ∧ t.draws = s.draws := by
  cases exec_next h <;> simp

/-- Of the commands only CGET writes DATA (R69). -/
theorem exec_data {i : Instr} {s t : State} (h : exec i s = .next t) :
    t.data = s.data ∨ ∃ c a k, i = .cget c a k := by
  cases exec_next h with
  | cget src a idx v => exact .inr ⟨src, a, idx, rfl⟩
  | _ => left; simp

/-- A container that is not the command's destination reads as before. -/
theorem exec_get_of_ne_dest {i : Instr} {s t : State} {c : Fin 4} (h : exec i s = .next t) (hc : dest i ≠ some c) :
    t.cont.get c = s.cont.get c := by
  rcases exec_cont h with hsame | ⟨d, k, hdest, hset⟩
  · rw [hsame]
  · have hne : c ≠ d := fun hcd => hc (hcd ▸ hdest)
    rw [hset, Quad.get_set_ne _ _ hne]

/-- Settles O17, from the frame of each register over all seven commands. -/
theorem commandsChangeOnlyTheirDestinations : Obligations.CommandsChangeOnlyTheirDestinations := by
  intro i s t h
  obtain ⟨hplatform, hagenda, hmem⟩ := exec_keeps h
  obtain ⟨hsrc, hlen, hseed, hlog, hdraws⟩ := exec_keeps_operands h
  refine ⟨fun x => by rw [hmem], hsrc, hlen, hseed, exec_wbusy h, hmem, exec_unordered h, hplatform, hagenda, hlog,
    hdraws, fun c => exec_get_of_ne_dest h, fun hno => ?_, fun hno => ?_, fun hno => ?_⟩
  · exact (exec_eq h).resolve_right fun ⟨x, y, hi⟩ => hno x y hi
  · exact (exec_data h).resolve_right fun ⟨c, a, k, hi⟩ => hno c a k hi
  · exact (exec_eng h).resolve_right fun ⟨d, w, r, aln, hi⟩ => hno d w r aln hi

end Sys2Proof.Machine
end

section
/-! The AES datapath (41_aes_datapath.md R75 to R87): multiplication is linear in its first factor, what each stage of
the round does to a byte, and where a rotation takes a lane. -/

namespace Sys2Proof.Machine

open Sys2Proof.Spec

/-! ### Field arithmetic and the substitution table (R76, R77) -/

/-- Multiplication by x is linear. -/
theorem xtime_xor (a a' : Byte) : xtime (a ^^^ a') = xtime a ^^^ xtime a' := by
  have hreduce : ∀ p q : Bool, (if (p ^^ q) = true then 0x1B#8 else 0x00#8) =
      (if p = true then 0x1B#8 else 0x00#8) ^^^ (if q = true then 0x1B#8 else 0x00#8) := by decide
  unfold xtime
  rw [BitVec.shiftLeft_xor_distrib, BitVec.getLsbD_xor, hreduce]
  ac_rfl

/-- The multiplication loop is linear in the first factor and its accumulator together. -/
theorem gmulLoop_xor (n : Nat) (a a' b acc acc' : Byte) :
    gmulLoop n (a ^^^ a') b (acc ^^^ acc') = gmulLoop n a b acc ^^^ gmulLoop n a' b acc' := by
  induction n generalizing a a' b acc acc' with
  | zero => rfl
  | succ n ih =>
    simp only [gmulLoop]
    rw [xtime_xor, ← ih]
    congr 1
    split
    · ac_rfl
    · rfl

/-- A product distributes over a sum of first factors. -/
theorem gmul_xor_left (a a' b : Byte) : gmul (a ^^^ a') b = gmul a b ^^^ gmul a' b :=
  gmulLoop_xor 8 a a' b 0x00#8 0x00#8

/-- The field's one. -/
theorem gmul_one_left : ∀ b : Byte, gmul 0x01#8 b = b := by decide +kernel

/-- The square of a byte. -/
def gsquare (a : Byte) : Byte := gmul a a

/-- The 254th power, which inverts a byte because the nonzero bytes are a group of 255: `p ↦ p² a` takes the exponent
1 to 127 in six steps, and the square of that is 254. -/
def fieldInv (a : Byte) : Byte :=
  gsquare ((fun p => gmul (gsquare p) a)^[6] a)

/-- The affine map of R77 as a byte: a xor of rotations and 0x63. -/
def affine (y : Byte) : Byte :=
  y ^^^ y.rotateRight 4 ^^^ y.rotateRight 5 ^^^ y.rotateRight 6 ^^^ y.rotateRight 7 ^^^ 0x63#8

/-- 0 maps to 0. -/
theorem fieldInv_zero : fieldInv 0x00#8 = 0x00#8 := by decide

/-- Bit i of a byte rotated to the right by n is bit i + n modulo 8. -/
theorem getLsbD_rotateRight_byte (y : Byte) {i n : Nat} (hi : i < 8) (hn : n < 8) :
    (y.rotateRight n).getLsbD i = y.getLsbD ((i + n) % 8) := by
  rw [BitVec.getLsbD_rotateRight, Nat.mod_eq_of_lt hn]
  by_cases hlow : i < 8 - n
  · have hpos : n + i = (i + n) % 8 := by omega
    simp [hlow, hpos]
  · have hpos : i - (8 - n) = (i + n) % 8 := by omega
    simp [hlow, hi, hpos]

/-- Bit i of the affine map. -/
theorem getLsbD_affine (y : Byte) {i : Nat} (h : i < 8) : (affine y).getLsbD i = affineBit y i := by
  simp only [affine, affineBit, BitVec.getLsbD_xor]
  rw [getLsbD_rotateRight_byte y h (by decide), getLsbD_rotateRight_byte y h (by decide),
    getLsbD_rotateRight_byte y h (by decide), getLsbD_rotateRight_byte y h (by decide)]

/-- Every byte but 0 has its power as inverse, and the table takes the affine map of that power back to the byte: all
256 bytes, both facts at once so that the kernel computes each power once. -/
theorem fieldInv_spec : ∀ x : Byte,
    (x ≠ 0x00#8 → gmul x (fieldInv x) = 0x01#8) ∧ invSbox (affine (fieldInv x)) = x := by decide +kernel

/-- Settles O19: y is the power `fieldInv x` and b its affine map. -/
theorem invSboxInvertsAffineOfInverse : Obligations.InvSboxInvertsAffineOfInverse := by
  intro x
  obtain ⟨hinverse, htable⟩ := fieldInv_spec x
  refine ⟨fieldInv x, affine (fieldInv x), ?_, fun i => getLsbD_affine _, htable⟩
  by_cases hx : x = 0x00#8
  · subst hx
    exact .inl ⟨rfl, fieldInv_zero⟩
  · exact .inr (hinverse hx)

/-! ### The round (R75, R77 to R80) -/

/-- Byte i after InvSubBytes. -/
theorem byteAt_invSubBytes (x : Lane) {i : Nat} (h : i < 16) : byteAt (invSubBytes x) i = invSbox (byteAt x i) :=
  byteAt_tabulateLane _ h

/-- Byte i after InvShiftRows: row `i % 4`, column `i / 4`. -/
theorem byteAt_invShiftRows (x : Lane) {i : Nat} (h : i < 16) :
    byteAt (invShiftRows x) i = byteAt x (cell (i % 4) ((i / 4 + 4 - i % 4) % 4)) :=
  byteAt_tabulateLane _ h

/-- The cells of the state are the bytes of the lane. -/
theorem cell_lt {r c : Nat} (hr : r < 4) (hc : c < 4) : cell r c < 16 := by
  unfold cell
  omega

/-- The row of a cell's byte. -/
theorem cell_mod (c : Nat) {r : Nat} (hr : r < 4) : cell r c % 4 = r := by
  unfold cell
  omega

/-- The column of a cell's byte. -/
theorem cell_div (c : Nat) {r : Nat} (hr : r < 4) : cell r c / 4 = c := by
  unfold cell
  omega

/-- The cell a round's column takes from row r, substituted. -/
theorem byteAt_invSubBytes_invShiftRows (x : Lane) {r c : Nat} (hr : r < 4) (hc : c < 4) :
    byteAt (invSubBytes (invShiftRows x)) (cell r c) = subbedCell x r c := by
  have hcell := cell_lt hr hc
  rw [byteAt_invSubBytes _ hcell, byteAt_invShiftRows _ hcell, cell_mod c hr, cell_div c hr]
  rfl

/-- Cell (r, c) after InvMixColumns: row r of the matrix applied to column c. -/
theorem byteAt_invMixColumns (x : Lane) {r c : Nat} (hr : r < 4) (hc : c < 4) :
    byteAt (invMixColumns x) (cell r c) =
      invMixCell r (byteAt x (cell 0 c)) (byteAt x (cell 1 c)) (byteAt x (cell 2 c)) (byteAt x (cell 3 c)) := by
  unfold invMixColumns
  rw [byteAt_tabulateLane _ (cell_lt hr hc), cell_mod c hr, cell_div c hr]

/-- The rows of the matrix have the coefficients of R79, each row the one above moved on by one. -/
theorem invMixCell_eq_mixRow {r : Nat} (hr : r < 4) (s0 s1 s2 s3 : Byte) :
    invMixCell r s0 s1 s2 s3 =
      mixRow (mixCoeff r 0) (mixCoeff r 1) (mixCoeff r 2) (mixCoeff r 3) s0 s1 s2 s3 :=
  match r, hr with
  | 0, _ | 1, _ | 2, _ | 3, _ => rfl

/-- Settles O20: the key is added last, and the byte before it is a matrix row over the substituted cells. -/
theorem aesdecByteByByte : Obligations.AesdecByteByByte := by
  intro x k r c hr hc
  have hround : byteAt (invMixColumns (invSubBytes (invShiftRows x))) (cell r c) =
      mixRow (mixCoeff r 0) (mixCoeff r 1) (mixCoeff r 2) (mixCoeff r 3)
        (subbedCell x 0 c) (subbedCell x 1 c) (subbedCell x 2 c) (subbedCell x 3 c) := by
    rw [byteAt_invMixColumns _ hr hc, invMixCell_eq_mixRow hr,
      byteAt_invSubBytes_invShiftRows x (by decide) hc, byteAt_invSubBytes_invShiftRows x (by decide) hc,
      byteAt_invSubBytes_invShiftRows x (by decide) hc, byteAt_invSubBytes_invShiftRows x (by decide) hc]
  calc byteAt (aesdec x k) (cell r c)
    _ = byteAt (invMixColumns (invSubBytes (invShiftRows x))) (cell r c) ^^^ byteAt k (cell r c) := byteAt_xor _ _ _
    _ = _ := by rw [hround]; rfl

/-- Settles O21: the one moves bytes and the other substitutes each byte by itself. -/
theorem invShiftRowsCommutesWithInvSubBytes : Obligations.InvShiftRowsCommutesWithInvSubBytes := by
  intro x
  apply lane_ext
  intro i hi
  have hsource : cell (i % 4) ((i / 4 + 4 - i % 4) % 4) < 16 :=
    cell_lt (Nat.mod_lt _ (by decide)) (Nat.mod_lt _ (by decide))
  rw [byteAt_invSubBytes _ hi, byteAt_invShiftRows _ hi, byteAt_invShiftRows _ hi, byteAt_invSubBytes _ hsource]

/-- On a column of equal bytes a matrix row is multiplication by the sum of its coefficients. -/
theorem mixRow_uniform (m0 m1 m2 m3 v : Byte) : mixRow m0 m1 m2 m3 v v v v = gmul (m0 ^^^ m1 ^^^ m2 ^^^ m3) v := by
  rw [gmul_xor_left, gmul_xor_left, gmul_xor_left]
  rfl

/-- Settles O22: the coefficients of every row sum to the field's one. -/
theorem uniformColumnIsFixedByInvMixColumns : Obligations.UniformColumnIsFixedByInvMixColumns := by
  intro v r
  unfold invMixCell
  split <;> exact (mixRow_uniform _ _ _ _ v).trans (gmul_one_left v)

/-! ### AES-merge (R82 to R84) -/

/-- Settles O23: the merge of every width is the lane-by-lane one (`mergeW_eq_merge`). -/
theorem mergeActsLaneByLane : Obligations.MergeActsLaneByLane := by
  intro w a b L hL
  rw [mergeW_eq_merge, lane_merge a b hL]

/-- Settles O24: every width gives the lane-by-lane merge. -/
theorem mergeDoesNotDependOnTheWidth : Obligations.MergeDoesNotDependOnTheWidth := by
  intro w w' a b
  rw [mergeW_eq_merge w, mergeW_eq_merge w']
  exact ⟨rfl, rfl⟩

/-! ### Rotation (R85, R87) -/

/-- Byte k of a value is byte `k % 16` of lane `k / 16`. -/
theorem byteAt_eq_byteAt_lane (v : Val) (k : Nat) : byteAt v k = byteAt (lane v (k / 16)) (k % 16) := by
  rw [byteAt_lane v (k / 16) (Nat.mod_lt k (by decide)), Nat.div_add_mod]

/-- Byte k of a rotation is the byte one lane on. -/
theorem byteAt_rot (b : Val) {k : Nat} (h : k < 64) : byteAt (rot b) k = byteAt b ((k + 16) % 64) := by
  have hlane : (k / 16 + 1) % 4 = (k + 16) % 64 / 16 := by omega
  have hbyte : k % 16 = (k + 16) % 64 % 16 := by omega
  rw [byteAt_eq_byteAt_lane, lane_rot b (by omega), hlane, hbyte, ← byteAt_eq_byteAt_lane]

/-- Lane L of the k-fold rotation. -/
theorem lane_rot_iterate (b : Val) (k : Nat) {L : Nat} (h : L < 4) : lane (rot^[k] b) L = lane b ((L + k) % 4) := by
  induction k generalizing L with
  | zero => rw [Function.iterate_zero_apply, Nat.add_zero, Nat.mod_eq_of_lt h]
  | succ k ih =>
    rw [Function.iterate_succ_apply', lane_rot _ h, ih (Nat.mod_lt _ (by decide)), Nat.mod_add_mod, Nat.add_right_comm,
      Nat.add_assoc]

/-- Settles O25: each byte (`byteAt_rot`) and each lane (`lane_rot`) is the one 16 bytes on. -/
theorem rotMovesEveryByteByOneLane : Obligations.RotMovesEveryByteByOneLane := fun b =>
  ⟨fun _ => byteAt_rot b, lane_rot b (by decide), lane_rot b (by decide), lane_rot b (by decide),
    lane_rot b (by decide)⟩

/-- Settles O26: k rotations move a lane k places (`lane_rot_iterate`), and four take each lane back (`rot_four`). -/
theorem repeatedRotationTakesLaneLPlusK : Obligations.RepeatedRotationTakesLaneLPlusK :=
  fun b k => ⟨fun _ => lane_rot_iterate b k, rot_four b⟩

end Sys2Proof.Machine
end

section
/-! The pieces of a HASH (42_hash_engine.md R92, R93, R96): the init vector element by element, the scratch buffer and
the sub-blocks of a block byte by byte. -/

namespace Sys2Proof.Machine

/-! ### The init vector (R93) -/

/-- A 64-bit element of IV: the seed at even places, the sum at odd ones. -/
theorem extract_initVector (seed len : Word) {e : Nat} (h : e < 8) :
    (initVector seed len).extractLsb' (64 * e) 64 = if e % 2 = 0 then seed else seed + len + 1#64 := by
  unfold initVector
  rw [extract_ofDigits _ _ (by omega)]
  simp [List.getD, h]

/-- A lane is its two 64-bit elements, the odd one above the even one (00_scope.md R8). -/
theorem lane_eq_append (v : Val) (L : Nat) :
    lane v L = v.extractLsb' (64 * (2 * L + 1)) 64 ++ v.extractLsb' (64 * (2 * L)) 64 := by
  have hodd : 64 * (2 * L + 1) = 64 * (2 * L) + 64 := by omega
  have hlane : 128 * L = 64 * (2 * L) := by omega
  rw [lane, hodd, BitVec.extractLsb'_append_extractLsb'_eq_extractLsb' rfl, hlane]

/-- Settles O27: the elements are `extract_initVector`'s, and a lane is an odd element above an even one. -/
theorem initVectorElementsAlternateSeedAndSum : Obligations.InitVectorElementsAlternateSeedAndSum := by
  intro seed len
  refine ⟨fun e => extract_initVector seed len, fun L hL => ?_⟩
  rw [lane_eq_append, extract_initVector _ _ (by omega), extract_initVector _ _ (by omega), if_neg (by omega),
    if_pos (by omega)]

/-! ### The scratch buffer and the sub-blocks (R92, R96) -/

/-- The scratch buffer is a block of 256 bytes. -/
theorem scratch_length (iv : Val) {tail : List Byte} (h : tail.length ≤ 256) : (scratch iv tail).length = 256 := by
  simp only [scratch, List.length_append, List.length_drop, List.length_map, List.length_range]
  omega

/-- Settles O28, from the buffer's length and its bytes (`scratch_getD`). -/
theorem scratchIsTheInitVectorOverlaidByTheTail : Obligations.ScratchIsTheInitVectorOverlaidByTheTail :=
  fun iv tail _ hle => ⟨scratch_length iv (by omega), fun _ => scratch_getD iv tail⟩

/-- A tabulated value depends on its 64 bytes only. -/
theorem tabulate_congr {f g : Nat → Byte} (h : ∀ j < 64, f j = g j) : tabulate f = tabulate g :=
  val_ext fun j hj => by rw [byteAt_tabulate f hj, byteAt_tabulate g hj, h j hj]

/-- Byte i of a list of bytes given one by one. -/
theorem getD_map_range (f : Nat → Byte) {n i : Nat} (h : i < n) : ((List.range n).map f).getD i 0x00#8 = f i := by
  simp [List.getD, h]

/-- A sub-block of a block given byte by byte. -/
theorem subBlock_map_range (f : Nat → Byte) {k : Nat} (hk : k < 4) :
    subBlock ((List.range 256).map f) k = tabulate fun j => f (64 * k + j) := by
  rw [subBlock_eq_tabulate]
  exact tabulate_congr fun j hj => getD_map_range f (by omega)

/-- A sub-block of the scratch buffer over a tail given byte by byte: the tail's bytes below its length, IV's from there
on. -/
theorem subBlock_scratch_map_range (iv : Val) (f : Nat → Byte) (n : Nat) {k : Nat} (hk : k < 4) :
    subBlock (scratch iv ((List.range n).map f)) k =
      tabulate fun j => if 64 * k + j < n then f (64 * k + j) else byteAt iv j := by
  rw [subBlock_eq_tabulate]
  refine tabulate_congr fun j hj => ?_
  rw [scratch_getD _ _ (by omega), List.length_map, List.length_range]
  by_cases hin : 64 * k + j < n
  · rw [if_pos hin, if_pos hin, getD_map_range f hin]
  · rw [if_neg hin, if_neg hin, Nat.mul_add_mod, Nat.mod_eq_of_lt hj]

end Sys2Proof.Machine
end

section
/-! The engine's micro-steps (42_hash_engine.md R95 to R102), each by what MemRead answers, and what they neither read
nor write. -/

namespace Sys2Proof.Machine

/-! ### ABSORB and TAIL (R95, R97, R102) -/

/-- An ABSORB step whose read answers a block. -/
theorem absorbStep_of_read {s : State} {d : List Byte}
    (h : memRead s (s.eng.op.src.toNat + 256 * s.eng.blk) 256 = some d) :
    absorbStep s = (s.addDraws 256).setEng { s.eng with
      streams := mergeBlock (mergeW s.eng.op.W) s.eng.streams d
      blk := s.eng.blk + 1
      phase := phaseAfterAbsorb s.eng.op (s.eng.blk + 1) } := by
  rw [absorbStep, h]

/-- An ABSORB step whose read is BusError. -/
theorem absorbStep_of_busError {s : State} (h : memRead s (s.eng.op.src.toNat + 256 * s.eng.blk) 256 = none) :
    absorbStep s = s.abort := by
  rw [absorbStep, h]

/-- A TAIL step whose read answers the tail. -/
theorem tailStep_of_read {s : State} {d : List Byte}
    (h : memRead s (s.eng.op.src.toNat + 256 * s.eng.op.nb) s.eng.op.tailLen = some d) :
    tailStep s = (s.addDraws s.eng.op.tailLen).setEng { s.eng with
      streams := mergeBlock (mergeW s.eng.op.W) s.eng.streams (scratch s.eng.iv d)
      phase := .rotate } := by
  rw [tailStep, h]

/-- A TAIL step whose read is BusError. -/
theorem tailStep_of_busError {s : State}
    (h : memRead s (s.eng.op.src.toNat + 256 * s.eng.op.nb) s.eng.op.tailLen = none) : tailStep s = s.abort := by
  rw [tailStep, h]

/-- The merges of a block given byte by byte. -/
theorem mergeBlock_map_range (m : Val → Val → Val) (q : Quad Val) (f : Nat → Byte) :
    mergeBlock m q ((List.range 256).map f) =
      ⟨m q.x0 (tabulate fun j => f (64 * 0 + j)), m q.x1 (tabulate fun j => f (64 * 1 + j)),
       m q.x2 (tabulate fun j => f (64 * 2 + j)), m q.x3 (tabulate fun j => f (64 * 3 + j))⟩ := by
  rw [mergeBlock, subBlock_map_range f (by decide), subBlock_map_range f (by decide), subBlock_map_range f (by decide),
    subBlock_map_range f (by decide)]

/-- Settles O29: the admitted read answers the oracle's 256 bytes, and `mergeBlock_map_range` merges them. -/
theorem absorbStepMergesTheBlockIntoTheStreams : Obligations.AbsorbStepMergesTheBlockIntoTheStreams := by
  rintro s r rfl hp ⟨hwrap, hadmits⟩
  rw [engineStep_absorb hp, absorbStep_of_read (memRead_admitted (by decide) hwrap hadmits), mergeBlock_map_range]
  rfl

/-- Settles O30: the admitted read answers the oracle's r bytes, and `subBlock_scratch_map_range` gives the sub-blocks
of the scratch buffer over them. -/
theorem tailStepMergesThePaddedTailIntoTheStreams : Obligations.TailStepMergesThePaddedTailIntoTheStreams := by
  rintro s r rfl hp htail ⟨hwrap, hadmits⟩
  rw [engineStep_tail hp, tailStep_of_read (memRead_admitted htail hwrap hadmits), mergeBlock,
    subBlock_scratch_map_range _ _ _ (by decide), subBlock_scratch_map_range _ _ _ (by decide),
    subBlock_scratch_map_range _ _ _ (by decide), subBlock_scratch_map_range _ _ _ (by decide)]
  rfl

/-- Settles O35: in both phases the refused read is BusError, and the run aborts. -/
theorem busErrorAbortsTheRun : Obligations.BusErrorAbortsTheRun := by
  rintro s r rfl (⟨hp, hn, hwhy⟩ | ⟨hp, hn, hwhy⟩)
  · rw [engineStep_absorb hp, absorbStep_of_busError (memRead_refused hn hwhy)]
    exact ⟨_, rfl, rfl, rfl⟩
  · rw [engineStep_tail hp, tailStep_of_busError (memRead_refused hn hwhy)]
    exact ⟨_, rfl, rfl, rfl⟩

/-! ### ROTATE, WHITEN and COMPLETE (R98, R100, R101) -/

/-- Settles O31: the stream is the one `rotateStream` names. -/
theorem rotateStepMergesTheStreamThenRotatesIt : Obligations.RotateStepMergesTheStreamThenRotatesIt := by
  rintro s r rfl hp
  exact ⟨rotateStream s.eng.rcnt, rfl, engineStep_rotate hp⟩

/-- Settles O33: the step is `whitenStep`, whose next phase is COMPLETE once WCNT reaches 5. -/
theorem whitenStepMergesIvIntoRet : Obligations.WhitenStepMergesIvIntoRet := by
  rintro s r rfl hp
  exact engineStep_whiten hp

/-- Settles O34: COMPLETE writes one container and ends the run, and `engineStep_cont` excludes every other phase. -/
theorem completeStepWritesTheDestinationAndEndsTheRun : Obligations.CompleteStepWritesTheDestinationAndEndsTheRun := by
  rintro s r rfl
  refine ⟨fun hp => ?_, fun hp => (engineStep_cont s).resolve_right fun h => hp h.1⟩
  rw [engineStep_complete hp]
  exact ⟨_, rfl, rfl, rfl, State.setCont_get_same _ _ _, fun c => State.setCont_get_ne _ _⟩

/-! ### The operand registers (R91, R109) -/

/-- The state with SRC, LEN, SEED and DATA replaced. -/
def State.withOperands (s : State) (x y z : Word) (d : Val) : State :=
  { s with src := x, len := y, seed := z, data := d }

section Operands

variable (s : State) (x y z : Word) (d : Val)

/-- MemRead reads none of them. -/
theorem memRead_withOperands (addr n : Nat) : memRead (s.withOperands x y z d) addr n = memRead s addr n := rfl

theorem absorbStep_withOperands :
    absorbStep (s.withOperands x y z d) = (absorbStep s).withOperands x y z d := by
  cases h : memRead s (s.eng.op.src.toNat + 256 * s.eng.blk) 256 with
  | none =>
    rw [absorbStep_of_busError h, absorbStep_of_busError ((memRead_withOperands s x y z d _ _).trans h)]
    rfl
  | some bytes =>
    rw [absorbStep_of_read h, absorbStep_of_read ((memRead_withOperands s x y z d _ _).trans h)]
    rfl

theorem tailStep_withOperands : tailStep (s.withOperands x y z d) = (tailStep s).withOperands x y z d := by
  cases h : memRead s (s.eng.op.src.toNat + 256 * s.eng.op.nb) s.eng.op.tailLen with
  | none =>
    rw [tailStep_of_busError h, tailStep_of_busError ((memRead_withOperands s x y z d _ _).trans h)]
    rfl
  | some bytes =>
    rw [tailStep_of_read h, tailStep_of_read ((memRead_withOperands s x y z d _ _).trans h)]
    rfl

end Operands

/-- Settles O36, phase by phase: only ABSORB and TAIL read anything outside the engine. -/
theorem engineIgnoresTheOperandRegisters : Obligations.EngineIgnoresTheOperandRegisters := by
  intro s x y z d
  show engineStep (s.withOperands x y z d) = (engineStep s).withOperands x y z d
  have hphase : (s.withOperands x y z d).eng.phase = s.eng.phase := rfl
  cases hp : s.eng.phase with
  | idle => rw [engineStep_idle hp, engineStep_idle (hphase.trans hp)]
  | absorb => rw [engineStep_absorb hp, engineStep_absorb (hphase.trans hp), absorbStep_withOperands]
  | tail => rw [engineStep_tail hp, engineStep_tail (hphase.trans hp), tailStep_withOperands]
  | rotate => rw [engineStep_rotate hp, engineStep_rotate (hphase.trans hp)]; rfl
  | whiten => rw [engineStep_whiten hp, engineStep_whiten (hphase.trans hp)]; rfl
  | complete => rw [engineStep_complete hp, engineStep_complete (hphase.trans hp)]; rfl

end Sys2Proof.Machine
end

section
/-! The acceptance of a HASH that passes the checks (42_hash_engine.md R90, R91, R94). -/

namespace Sys2Proof.Machine

/-- An aligned SRC, or no hint, passes the ALIGN check (R90). -/
theorem misaligned_eq_false {aln : Bool} {w : ProcWidth} {src : Word}
    (h : aln = true → src.toNat % (w.bits / 8) = 0) : misaligned aln w src = false := by
  cases aln with
  | false => rfl
  | true => simp [misaligned, h rfl]

/-- An empty buffer, and one that ends at or below 2^64, passes the wrap check (R90). -/
theorem rangeWraps_eq_false_of_le {src len : Word} (h : len = 0#64 ∨ src.toNat + len.toNat ≤ 2 ^ 64) :
    rangeWraps src len = false := by
  refine decide_eq_false ?_
  rintro ⟨hne, hgt⟩
  rcases h with h0 | hle
  · exact hne h0
  · omega

/-- The operands a HASH copies (R91). -/
def State.hashOp (s : State) (d : Fin 4) (w : ProcWidth) (a : ViewWidth) : Op :=
  { src := s.src, len := s.len, seed := s.seed, ca := d, R := a, W := w }

/-- A HASH that passes the checks starts the engine on a snapshot of its operands. -/
theorem exec_hash_of_checks {s : State} (d : Fin 4) {w : ProcWidth} (a : ViewWidth) {aln : Bool}
    (hw : s.platform.supports w = true) (haln : aln = true → s.src.toNat % (w.bits / 8) = 0)
    (hwrap : s.len = 0#64 ∨ s.src.toNat + s.len.toNat ≤ 2 ^ 64) :
    exec (.hash d w (.of a) aln) s = .next (s.accept.setEng (startEngine (s.hashOp d w a) s.unordered)) := by
  simp only [exec, execHash, hw, misaligned_eq_false haln, rangeWraps_eq_false_of_le hwrap, Bool.not_true,
    Bool.false_eq_true, if_false]
  rfl

/-- Every stream starts as IV (R94). -/
theorem startEngine_streams_get (o : Op) (l : List Nat) (k : Fin 4) :
    (startEngine o l).streams.get k = (startEngine o l).iv :=
  match k with
  | 0 | 1 | 2 | 3 => rfl

/-- The raced bytes at the start are the unordered stores inside the buffer (20_memory.md R44; log 6). -/
theorem mem_startEngine_raced (o : Op) (l : List Nat) (x : Nat) :
    x ∈ (startEngine o l).raced ↔ x ∈ l ∧ o.src.toNat ≤ x ∧ x < o.src.toNat + o.len.toNat := by
  simp [startEngine, Op.inBuffer]

/-- Settles O15: the engine's registers are `startEngine`'s. -/
theorem hashAcceptanceSnapshotsOperandsAndSetsUpTheEngine :
    Obligations.HashAcceptanceSnapshotsOperandsAndSetsUpTheEngine := by
  intro s d w a aln hw haln hwrap
  exact ⟨_, _, exec_hash_of_checks d a hw haln hwrap, rfl, rfl, fun e => extract_initVector s.seed s.len,
    startEngine_streams_get _ _, rfl, rfl, rfl, rfl, rfl, mem_startEngine_raced _ _⟩

end Sys2Proof.Machine
end

section
/-! The engine left to itself (70_reset_and_hazards.md R139): every run ends within the steps R105 counts, and no
container changes before. -/

namespace Sys2Proof.Machine

/-- A run in progress is not idle. -/
theorem Engine.phase_ne_idle_of_runInv {p : Platform} {e : Engine} (h : e.runInv p) : e.phase ≠ .idle := by
  obtain ⟨-, -, -, -, hat⟩ := h
  intro hidle
  simp only [hidle] at hat

/-- A run in progress has a step to come (R105). -/
theorem Engine.stepsLeft_pos {e : Engine} (h : e.phase ≠ .idle) : 1 ≤ e.stepsLeft := by
  cases hp : e.phase with
  | idle => exact absurd hp h
  | _ => simp only [Engine.stepsLeft, hp]; omega

/-- A step that does not end the run writes no container (R101). -/
theorem engineStep_cont_of_busy {s : State} (hb : (engineStep s).eng.phase ≠ .idle) :
    (engineStep s).cont = s.cont := by
  refine (engineStep_cont s).resolve_right fun ⟨hp, _⟩ => hb ?_
  rw [engineStep_complete hp]
  rfl

/-- An idle engine stays as it is. -/
theorem engineStep_iterate_idle {s : State} (h : s.eng.phase = .idle) (n : Nat) : engineStep^[n] s = s :=
  Function.iterate_fixed (engineStep_idle h) n

/-- Step `n` ends the run that `s` is in, with every container as it was until then. -/
structure State.endsAt (s : State) (n : Nat) : Prop where
  idle : (engineStep^[n] s).eng.phase = .idle
  busy : ∀ m < n, (engineStep^[m] s).eng.phase ≠ .idle ∧ (engineStep^[m] s).cont = s.cont

/-- A run that goes on after a step ends one step later than from there. -/
theorem State.endsAt_succ {s : State} {n : Nat} (hs : s.eng.phase ≠ .idle) (hb : (engineStep s).eng.phase ≠ .idle)
    (h : (engineStep s).endsAt n) : s.endsAt (n + 1) := by
  refine ⟨h.idle, fun m hm => ?_⟩
  cases m with
  | zero => exact ⟨hs, rfl⟩
  | succ m =>
    obtain ⟨hbusy, hcont⟩ := h.busy m (by omega)
    exact ⟨hbusy, hcont.trans (engineStep_cont_of_busy hb)⟩

/-- Every run ends: by its last step with ERR 0, or by a refused read with ERR = BUS. -/
theorem exists_endsAt {s : State} (hrun : s.eng.runInv s.platform) :
    ∃ n, 1 ≤ n ∧ n ≤ s.eng.stepsLeft ∧ s.endsAt n ∧
      ((n = s.eng.stepsLeft ∧ (engineStep^[n] s).err = .ok) ∨ (engineStep^[n] s).err = .bus) := by
  have hs := Engine.phase_ne_idle_of_runInv hrun
  have hpos := Engine.stepsLeft_pos hs
  induction hsteps : s.eng.stepsLeft generalizing s with
  | zero => omega
  | succ k ih =>
    rcases engineStep_progress hrun with ⟨hb, -, hleft⟩ | ⟨hidle, hend⟩
    · have hrun' : (engineStep s).eng.runInv (engineStep s).platform := by
        rw [engineStep_platform]
        exact engineStep_runInv hrun hb
      obtain ⟨n, -, hle, hends, hwhy⟩ := ih hrun' hb (Engine.stepsLeft_pos hb) (by omega)
      refine ⟨n + 1, by omega, by omega, State.endsAt_succ hs hb hends,
        hwhy.imp_left fun ⟨hn, hok⟩ => ⟨by omega, hok⟩⟩
    · refine ⟨1, le_rfl, by omega, ⟨hidle, fun m hm => ?_⟩,
        hend.symm.imp_left fun ⟨hlast, hok⟩ => ⟨by omega, hok⟩⟩
      obtain rfl : m = 0 := by omega
      exact ⟨hs, rfl⟩

/-- A run that has ended stays so. -/
theorem State.endsAt.iterate_eq {s : State} {n m : Nat} (h : s.endsAt n) (hle : n ≤ m) :
    engineStep^[m] s = engineStep^[n] s := by
  obtain ⟨k, rfl⟩ := Nat.exists_eq_add_of_le' hle
  rw [Function.iterate_add_apply, engineStep_iterate_idle h.idle]

/-- A run with ERR 0 after all its steps took all of them. -/
theorem endsAt_stepsLeft {s : State} (hrun : s.eng.runInv s.platform)
    (hok : (engineStep^[s.eng.stepsLeft] s).err = .ok) : s.endsAt s.eng.stepsLeft := by
  obtain ⟨n, -, hle, hends, ⟨rfl, -⟩ | hbus⟩ := exists_endsAt hrun
  · exact hends
  · rw [hends.iterate_eq hle, hbus] at hok
    cases hok

/-- Settles O40: with no turn to come the steps are the engine's (`run_undisturbed`), and `exists_endsAt` counts
them. -/
theorem undisturbedRunEndsWithinItsSteps : Obligations.UndisturbedRunEndsWithinItsSteps := by
  rintro s ⟨-, -, hbusy⟩ hagenda hb
  obtain ⟨-, hrun⟩ := hbusy hb
  obtain ⟨n, hpos, hle, hends, hwhy⟩ := exists_endsAt hrun
  exact ⟨n, _, hpos, hle, run_undisturbed n hagenda, hends.idle, hwhy⟩

end Sys2Proof.Machine
end

section
/-! The rotate schedule and the whitening (42_hash_engine.md R98 to R100) as functions, and the engine's steps that
compute them. -/

namespace Sys2Proof.Machine

/-- RET and the streams after the first `n` steps of the schedule (R98). -/
def rotateSchedule (x : Val × Quad Val) (n : Nat) : Val × Quad Val :=
  (List.range n).foldl (fun y k => aesRotate merge (rotateStream k) y) x

/-- RET after the first `n` whitening merges (R100). -/
def whitenSchedule (iv ret : Val) (n : Nat) : Val := (List.range n).foldl (fun x _ => merge x iv) ret

theorem rotateSchedule_succ (x : Val × Quad Val) (n : Nat) :
    rotateSchedule x (n + 1) = aesRotate merge (rotateStream n) (rotateSchedule x n) := by
  simp [rotateSchedule, List.range_succ]

theorem whitenSchedule_succ (iv ret : Val) (n : Nat) :
    whitenSchedule iv ret (n + 1) = merge (whitenSchedule iv ret n) iv := by
  simp [whitenSchedule, List.range_succ]

/-- Step 5 of MeowHash is the whole schedule (R89). -/
theorem rotateAll_eq_rotateSchedule (iv : Val) (q : Quad Val) : rotateAll iv q = (rotateSchedule (iv, q) 16).1 := by
  have hstreams : (List.range 16).map rotateStream = (List.range 4).flatMap fun _ => [0, 1, 2, 3] := by decide
  rw [rotateSchedule, ← List.foldl_map (f := rotateStream) (g := fun y k => aesRotate merge k y), hstreams,
    List.foldl_flatMap]
  rfl

/-- Stream k after n steps of the schedule has been rotated once for each step that took it. -/
theorem rotateSchedule_streams_get (x : Val × Quad Val) (n : Nat) (k : Fin 4) :
    (rotateSchedule x n).2.get k = rot^[(n + 3 - k) / 4] (x.2.get k) := by
  have hk := k.isLt
  induction n with
  | zero =>
    have h0 : (0 + 3 - k.val) / 4 = 0 := by omega
    rw [h0]
    rfl
  | succ n ih =>
    rw [rotateSchedule_succ, aesRotate]
    by_cases hnk : k = rotateStream n
    · have hval : k.val = n % 4 := congrArg Fin.val hnk
      have hturn : (n + 1 + 3 - k.val) / 4 = (n + 3 - k.val) / 4 + 1 := by omega
      rw [← hnk, Quad.get_set_same, ih, hturn, Function.iterate_succ_apply']
    · have hval : k.val ≠ n % 4 := fun h => hnk (Fin.ext h)
      have hturn : (n + 1 + 3 - k.val) / 4 = (n + 3 - k.val) / 4 := by omega
      rw [Quad.get_set_ne _ _ hnk, ih, hturn]

/-- RET after n steps of the schedule: the streams in order, each rotated by its pass (R99). -/
theorem rotateSchedule_ret (x : Val × Quad Val) (n : Nat) :
    (rotateSchedule x n).1 =
      (List.range n).foldl (fun y k => merge y (rot^[k / 4] (x.2.get (rotateStream k)))) x.1 := by
  induction n with
  | zero => rfl
  | succ n ih =>
    have hpass : (n + 3 - (rotateStream n).val) / 4 = n / 4 := by
      show (n + 3 - n % 4) / 4 = n / 4
      omega
    rw [rotateSchedule_succ, List.range_succ, List.foldl_append, ← ih, aesRotate, rotateSchedule_streams_get, hpass]
    rfl

/-- A ROTATE step is one step of the schedule (R98), whatever W is (41_aes_datapath.md R84). -/
theorem engineStep_eq_aesRotate {s : State} (hp : s.eng.phase = .rotate) :
    engineStep s = s.setEng { s.eng with
      ret := (aesRotate merge (rotateStream s.eng.rcnt) (s.eng.ret, s.eng.streams)).1
      streams := (aesRotate merge (rotateStream s.eng.rcnt) (s.eng.ret, s.eng.streams)).2
      rcnt := s.eng.rcnt + 1
      phase := if s.eng.rcnt + 1 = 16 then .whiten else .rotate } := by
  rw [engineStep_rotate hp, rotateStep, funext₂ (mergeW_eq_merge s.eng.op.W)]

/-- The engine `n` steps into ROTATE. -/
def Engine.afterRotate (e : Engine) (n : Nat) : Engine :=
  { e with
    ret := (rotateSchedule (e.ret, e.streams) n).1
    streams := (rotateSchedule (e.ret, e.streams) n).2
    rcnt := n
    phase := if n = 16 then .whiten else .rotate }

theorem Engine.afterRotate_zero {e : Engine} (hp : e.phase = .rotate) (h0 : e.rcnt = 0) : e.afterRotate 0 = e := by
  cases e
  cases hp
  cases h0
  rfl

/-- The engine `n` steps into WHITEN. -/
def Engine.afterWhiten (e : Engine) (n : Nat) : Engine :=
  { e with
    ret := whitenSchedule e.iv e.ret n
    wcnt := n
    phase := if n = 5 then .complete else .whiten }

theorem Engine.afterWhiten_zero {e : Engine} (hp : e.phase = .whiten) (h0 : e.wcnt = 0) : e.afterWhiten 0 = e := by
  cases e
  cases hp
  cases h0
  rfl

/-- The steps of ROTATE, from its first. -/
theorem engineStep_iterate_rotate (s : State) {e : Engine} (hp : e.phase = .rotate) (h0 : e.rcnt = 0)
    {n : Nat} (hn : n ≤ 16) : engineStep^[n] (s.setEng e) = s.setEng (e.afterRotate n) := by
  induction n with
  | zero => rw [Engine.afterRotate_zero hp h0, Function.iterate_zero_apply]
  | succ n ih =>
    have hphase : (s.setEng (e.afterRotate n)).eng.phase = .rotate := if_neg (by omega)
    rw [Function.iterate_succ_apply', ih (by omega), engineStep_eq_aesRotate hphase]
    simp only [Engine.afterRotate, rotateSchedule_succ]
    rfl

/-- The steps of WHITEN, from its first. -/
theorem engineStep_iterate_whiten (s : State) {e : Engine} (hp : e.phase = .whiten) (h0 : e.wcnt = 0)
    {n : Nat} (hn : n ≤ 5) : engineStep^[n] (s.setEng e) = s.setEng (e.afterWhiten n) := by
  induction n with
  | zero => rw [Engine.afterWhiten_zero hp h0, Function.iterate_zero_apply]
  | succ n ih =>
    have hphase : (s.setEng (e.afterWhiten n)).eng.phase = .whiten := if_neg (by omega)
    rw [Function.iterate_succ_apply', ih (by omega), engineStep_whiten hphase, whitenStep, mergeW_eq_merge]
    simp only [Engine.afterWhiten, whitenSchedule_succ]
    rfl

/-- Settles O32: the steps compute the schedule (`engineStep_iterate_rotate`), whose RET `rotateSchedule_ret` gives. -/
theorem rotateScheduleTakesStreamsInOrderAndPassRotation :
    Obligations.RotateScheduleTakesStreamsInOrderAndPassRotation := by
  rintro s r hagenda rfl hp h0 n hn
  refine ⟨_, s.eng.afterRotate n, run_undisturbed n hagenda, engineStep_iterate_rotate s hp h0 hn, rfl, ?_, rfl⟩
  exact rotateSchedule_ret _ n

end Sys2Proof.Machine
end

section
/-! An accepted HASH left to itself over memory nobody else writes (42_hash_engine.md R89, R103, R105): the bytes its
reads answer, and the run from acceptance to COMPLETE. -/

namespace Sys2Proof.Machine

open Sys2Proof.Spec

/-! ### The bytes the engine reads (20_memory.md R38, R39, R44) -/

/-- The input bytes of the run in progress. -/
def State.runBytes (s : State) : List Byte :=
  (List.range s.eng.op.len.toNat).map fun j => s.mem.read (s.eng.op.src.toNat + j)

@[simp] theorem State.runBytes_length (s : State) : s.runBytes.length = s.eng.op.len.toNat := by
  simp [State.runBytes]

/-- Nothing disturbs the run in progress: no turn is to come, no byte of its buffer is any value, and every request
of it is admitted. -/
structure State.quiet (s : State) : Prop where
  agenda : s.agenda = []
  raced : s.eng.raced = []
  plain : ∀ x, s.eng.op.src.toNat ≤ x → x < s.eng.op.src.toNat + s.eng.op.len.toNat →
    s.platform.hasSideEffect x = false
  fits : s.eng.op.src.toNat + s.eng.op.len.toNat ≤ 2 ^ 64
  blocks : ∀ k < s.eng.op.nb, s.platform.admits (s.eng.op.src.toNat + 256 * k) 256 = true
  tail : s.eng.op.tailLen ≠ 0 →
    s.platform.admits (s.eng.op.src.toNat + 256 * s.eng.op.nb) s.eng.op.tailLen = true

/-- A run stays undisturbed as it goes on. -/
theorem State.quiet_goesOn {s : State} (hq : s.quiet) (n : Nat) {e : Engine} (hop : e.op = s.eng.op)
    (hraced : e.raced = s.eng.raced) : ((s.addDraws n).setEng e).quiet := by
  obtain ⟨hagenda, hnone, hplain, hfits, hblocks, htail⟩ := hq
  rw [← hop] at hplain hfits hblocks htail
  exact ⟨hagenda, hraced.trans hnone, hplain, hfits, hblocks, htail⟩

/-- An undisturbed run's read of its buffer answers memory's bytes. -/
theorem oracleByte_of_quiet {s : State} (hq : s.quiet) {off j : Nat} (h : off + j < s.eng.op.len.toNat) :
    oracleByte s (s.eng.op.src.toNat + off) j = s.mem.read (s.eng.op.src.toNat + (off + j)) := by
  have hplain := hq.plain (s.eng.op.src.toNat + (off + j)) (by omega) (by omega)
  have hany : isAnyValue s (s.eng.op.src.toNat + (off + j)) = false := by
    simp [isAnyValue, hq.raced, hq.agenda, hplain]
  rw [oracleByte, Nat.add_assoc, hany]
  rfl

/-- An admitted request inside the buffer answers that piece of the input bytes. -/
theorem memRead_of_quiet {s : State} (hq : s.quiet) {off n : Nat} (hn : n ≠ 0) (hle : off + n ≤ s.eng.op.len.toNat)
    (hadmits : s.platform.admits (s.eng.op.src.toNat + off) n = true) :
    memRead s (s.eng.op.src.toNat + off) n = some ((s.runBytes.drop off).take n) := by
  have hfits := hq.fits
  rw [memRead_admitted hn (by omega) hadmits]
  congr 1
  refine List.ext_getElem (by simp; omega) fun j hj _ => ?_
  have hjn : j < n := by simpa using hj
  simp [State.runBytes, oracleByte_of_quiet hq (show off + j < s.eng.op.len.toNat by omega)]

/-- The buffer is its full blocks and its tail (R92). -/
theorem Op.len_eq (o : Op) : o.len.toNat = 256 * o.nb + o.tailLen := (Nat.div_add_mod _ _).symm

/-- The read of a full block. -/
theorem memRead_block {s : State} (hq : s.quiet) {k : Nat} (hk : k < s.eng.op.nb) :
    memRead s (s.eng.op.src.toNat + 256 * k) 256 = some ((s.runBytes.drop (256 * k)).take 256) := by
  have hlen := s.eng.op.len_eq
  exact memRead_of_quiet hq (by decide) (by omega) (hq.blocks k hk)

/-- The read of the tail: all the bytes after the last full block. -/
theorem memRead_tail {s : State} (hq : s.quiet) (htail : s.eng.op.tailLen ≠ 0) :
    memRead s (s.eng.op.src.toNat + 256 * s.eng.op.nb) s.eng.op.tailLen =
      some (s.runBytes.drop (256 * s.eng.op.nb)) := by
  have hlen := s.eng.op.len_eq
  rw [memRead_of_quiet hq htail (by omega) (hq.tail htail), List.take_of_length_le (by simp; omega)]

/-! ### The absorption (R95, R97) -/

/-- The streams after the first `n` full blocks. -/
def absorbBlocks (data : List Byte) (q : Quad Val) (n : Nat) : Quad Val :=
  (List.range n).foldl (fun q k => mergeBlock merge q ((data.drop (256 * k)).take 256)) q

@[simp] theorem absorbBlocks_zero (data : List Byte) (q : Quad Val) : absorbBlocks data q 0 = q := rfl

theorem absorbBlocks_succ (data : List Byte) (q : Quad Val) (n : Nat) :
    absorbBlocks data q (n + 1) =
      mergeBlock merge (absorbBlocks data q n) ((data.drop (256 * n)).take 256) := by
  simp [absorbBlocks, List.range_succ]

/-- Steps 3 and 4 of MeowHash: the full blocks, then the padded tail if there is one (R89). -/
theorem absorbAll_eq (data : List Byte) (iv : Val) :
    absorbAll data iv =
      if data.length % 256 = 0 then absorbBlocks data ⟨iv, iv, iv, iv⟩ (data.length / 256)
      else mergeBlock merge (absorbBlocks data ⟨iv, iv, iv, iv⟩ (data.length / 256))
        (scratch iv (data.drop (256 * (data.length / 256)))) := rfl

/-- The engine after the first `n` full blocks of `data`. -/
def Engine.afterBlocks (e : Engine) (data : List Byte) (n : Nat) : Engine :=
  { e with streams := absorbBlocks data e.streams n, blk := n, phase := phaseAfterAbsorb e.op n }

/-- One block more. -/
theorem Engine.afterBlocks_succ (e : Engine) (data : List Byte) (n : Nat) :
    e.afterBlocks data (n + 1) = { e.afterBlocks data n with
      streams := mergeBlock merge (e.afterBlocks data n).streams ((data.drop (256 * n)).take 256)
      blk := n + 1
      phase := phaseAfterAbsorb e.op (n + 1) } := by
  rw [Engine.afterBlocks, absorbBlocks_succ]
  rfl

/-- The engine once `data` is absorbed. -/
def Engine.absorbed (e : Engine) (data : List Byte) : Engine :=
  { e with streams := absorbAll data e.iv, blk := e.op.nb, phase := .rotate }

/-- Acceptance enters the phase that follows no block (R94). -/
theorem firstPhase_eq_phaseAfterAbsorb (o : Op) : firstPhase o = phaseAfterAbsorb o 0 := by
  unfold firstPhase phaseAfterAbsorb
  by_cases h : o.nb = 0
  · rw [if_neg (by omega), if_pos h.symm]
  · rw [if_pos (by omega), if_neg (Ne.symm h)]

theorem startEngine_afterBlocks_zero (o : Op) (l : List Nat) (data : List Byte) :
    (startEngine o l).afterBlocks data 0 = startEngine o l := by
  simp [Engine.afterBlocks, startEngine, firstPhase_eq_phaseAfterAbsorb]

theorem State.addDraws_addDraws (s : State) (m n : Nat) : (s.addDraws m).addDraws n = s.addDraws (m + n) := by
  simp [State.addDraws, Nat.add_assoc]

section Run

variable {s : State} {o : Op} (hq : s.quiet) (he : s.eng = startEngine o [])

include hq he

/-- The steps of ABSORB, from acceptance. -/
theorem engineStep_iterate_absorb {n : Nat} (hn : n ≤ s.eng.op.nb) :
    engineStep^[n] s = (s.addDraws (256 * n)).setEng (s.eng.afterBlocks s.runBytes n) := by
  induction n with
  | zero =>
    rw [he, startEngine_afterBlocks_zero, ← he]
    rfl
  | succ n ih =>
    have hphase : phaseAfterAbsorb s.eng.op n = .absorb := if_neg (by omega)
    have hquiet := State.quiet_goesOn hq (256 * n) (e := s.eng.afterBlocks s.runBytes n) rfl rfl
    have hread := memRead_block hquiet hn
    rw [Function.iterate_succ_apply', ih (by omega), engineStep_absorb hphase, absorbStep_of_read hread,
      funext₂ (mergeW_eq_merge _), Nat.mul_succ, ← State.addDraws_addDraws, Engine.afterBlocks_succ]
    rfl

/-- The absorption, from acceptance to the first step of ROTATE. -/
theorem engineStep_iterate_absorption :
    ∃ m, engineStep^[s.eng.op.absorbSteps 0] s = (s.addDraws m).setEng (s.eng.absorbed s.runBytes) := by
  have hnb : s.runBytes.length / 256 = s.eng.op.nb := by rw [State.runBytes_length]; rfl
  have hr : s.runBytes.length % 256 = s.eng.op.tailLen := by rw [State.runBytes_length]; rfl
  have hstreams : s.eng.streams = ⟨s.eng.iv, s.eng.iv, s.eng.iv, s.eng.iv⟩ := by rw [he]; rfl
  have hblocks := engineStep_iterate_absorb hq he le_rfl
  rw [Op.absorbSteps, Engine.absorbed, absorbAll_eq, hnb, hr, ← hstreams]
  by_cases htail : s.eng.op.tailLen = 0
  · have hphase : phaseAfterAbsorb s.eng.op s.eng.op.nb = .rotate := by
      rw [phaseAfterAbsorb, if_pos rfl, if_neg (not_not_intro htail)]
    refine ⟨256 * s.eng.op.nb, ?_⟩
    rw [if_pos htail, if_pos htail, Nat.sub_zero, Nat.add_zero, hblocks, Engine.afterBlocks, hphase]
  · have hphase : phaseAfterAbsorb s.eng.op s.eng.op.nb = .tail := by
      rw [phaseAfterAbsorb, if_pos rfl, if_pos htail]
    have hquiet := State.quiet_goesOn hq (256 * s.eng.op.nb) (e := s.eng.afterBlocks s.runBytes s.eng.op.nb) rfl rfl
    have hread := memRead_tail hquiet htail
    refine ⟨256 * s.eng.op.nb + s.eng.op.tailLen, ?_⟩
    rw [if_neg htail, if_neg htail, Nat.sub_zero, Function.iterate_succ_apply', hblocks, engineStep_tail hphase,
      tailStep_of_read hread, funext₂ (mergeW_eq_merge _), ← State.addDraws_addDraws]
    rfl

/-- The steps before COMPLETE leave MeowHash of the input bytes in RET (R89 to R100). -/
theorem engineStep_iterate_hash :
    ∃ m e, engineStep^[s.eng.op.absorbSteps 0 + 16 + 5] s = (s.addDraws m).setEng e ∧ e.phase = .complete ∧
      e.op = o ∧ e.ret = meowHash s.runBytes o.seed := by
  have hrcnt : (s.eng.absorbed s.runBytes).rcnt = 0 := congrArg Engine.rcnt he
  have hwcnt : ((s.eng.absorbed s.runBytes).afterRotate 16).wcnt = 0 := congrArg Engine.wcnt he
  have hret : s.eng.ret = s.eng.iv := by rw [he]; rfl
  have hiv : s.eng.iv = initVector o.seed (BitVec.ofNat 64 s.runBytes.length) := by
    rw [State.runBytes_length, BitVec.ofNat_toNat, BitVec.setWidth_eq, he]
    rfl
  obtain ⟨m, habsorbed⟩ := engineStep_iterate_absorption hq he
  refine ⟨m, ((s.eng.absorbed s.runBytes).afterRotate 16).afterWhiten 5, ?_, rfl, congrArg Engine.op he, ?_⟩
  · calc engineStep^[s.eng.op.absorbSteps 0 + 16 + 5] s
      _ = engineStep^[5] (engineStep^[16] (engineStep^[s.eng.op.absorbSteps 0] s)) := by
        rw [Nat.add_comm _ 5, Function.iterate_add_apply, Nat.add_comm _ 16, Function.iterate_add_apply]
      _ = engineStep^[5] (engineStep^[16] ((s.addDraws m).setEng (s.eng.absorbed s.runBytes))) := by rw [habsorbed]
      _ = engineStep^[5] ((s.addDraws m).setEng ((s.eng.absorbed s.runBytes).afterRotate 16)) := by
        rw [engineStep_iterate_rotate _ rfl hrcnt le_rfl]
      _ = (s.addDraws m).setEng (((s.eng.absorbed s.runBytes).afterRotate 16).afterWhiten 5) :=
        engineStep_iterate_whiten _ rfl hwcnt le_rfl
  · show whitenSchedule s.eng.iv (rotateSchedule (s.eng.ret, absorbAll s.runBytes s.eng.iv) 16).1 5 = _
    rw [meowHash, ← hiv, hret, rotateAll_eq_rotateSchedule]
    rfl

end Run

/-! ### From acceptance to completion (R88, R101, R103, R105) -/

/-- The steps of a run right after acceptance (R105). -/
theorem stepsLeft_startEngine (o : Op) (l : List Nat) : (startEngine o l).stepsLeft = o.absorbSteps 0 + 22 := by
  by_cases hnb : o.nb > 0
  · simp [Engine.stepsLeft, startEngine, firstPhase, hnb]
  · have hnb0 : o.nb = 0 := by omega
    by_cases htail : o.tailLen = 0
    · simp [Engine.stepsLeft, startEngine, firstPhase, Op.absorbSteps, hnb0, htail]
    · simp [Engine.stepsLeft, startEngine, firstPhase, Op.absorbSteps, hnb0, htail]

/-- The count of R105 in the words of the statements. -/
theorem hashSteps_eq_stepsLeft (o : Op) (l : List Nat) : hashSteps o.len.toNat = (startEngine o l).stepsLeft := by
  rw [stepsLeft_startEngine]
  show o.nb + (if o.tailLen ≠ 0 then 1 else 0) + 16 + 5 + 1 = o.nb - 0 + (if o.tailLen = 0 then 0 else 1) + 22
  rw [ite_not]
  omega

/-- The last step of an undisturbed run completes it with MeowHash of the input bytes. -/
theorem engineStep_iterate_stepsLeft {s : State} {o : Op} (hq : s.quiet) (he : s.eng = startEngine o []) :
    ∃ m e, engineStep^[s.eng.stepsLeft] s = completeStep ((s.addDraws m).setEng e) ∧ e.op = o ∧
      e.ret = meowHash s.runBytes o.seed := by
  obtain ⟨m, e, hiter, hphase, hop, hret⟩ := engineStep_iterate_hash hq he
  have hsteps : s.eng.stepsLeft = s.eng.op.absorbSteps 0 + 16 + 5 + 1 := by
    rw [he, stepsLeft_startEngine]
    rfl
  refine ⟨m, e, ?_, hop, hret⟩
  rw [hsteps, Function.iterate_succ_apply', hiter]
  exact engineStep_complete hphase

/-- The state right after a HASH is accepted with every store ordered. -/
def State.hashAccepted (s : State) (d : Fin 4) (w : ProcWidth) (a : ViewWidth) : State :=
  s.accept.setEng (startEngine (s.hashOp d w a) [])

/-- The run starts undisturbed when nothing is to come and the platform admits its requests. -/
theorem quiet_hashAccepted {s : State} (d : Fin 4) (w : ProcWidth) (a : ViewWidth) (hagenda : s.agenda = [])
    (hplain : ∀ x, s.src.toNat ≤ x → x < s.src.toNat + s.len.toNat → s.platform.hasSideEffect x = false)
    (hfits : s.src.toNat + s.len.toNat ≤ 2 ^ 64) (hadmits : admitsInput s) : (s.hashAccepted d w a).quiet :=
  ⟨hagenda, rfl, hplain, hfits, hadmits.1, hadmits.2⟩

/-- Settles O39: `engineStep_iterate_stepsLeft` gives the end of the run; as that has ERR 0 the run takes all its steps
(`endsAt_stepsLeft`), and no container changes before. -/
theorem hashRunComputesMeowHash : Obligations.HashRunComputesMeowHash := by
  intro s d w a aln hagenda hordered hplain hw haln hfits hadmits
  have hexec : exec (.hash d w (.of a) aln) s = .next (s.hashAccepted d w a) := by
    rw [exec_hash_of_checks d a hw haln (.inr hfits), hordered, State.hashAccepted]
  have hquiet := quiet_hashAccepted d w a hagenda hplain hfits hadmits
  have hsteps : hashSteps s.len.toNat = (s.hashAccepted d w a).eng.stepsLeft :=
    hashSteps_eq_stepsLeft (s.hashOp d w a) []
  have hrun : (s.hashAccepted d w a).eng.runInv s.platform :=
    startEngine_runInv [] hw (rangeWraps_eq_false_of_le (.inr hfits))
  obtain ⟨m, e, hiter, hop, hret⟩ := engineStep_iterate_stepsLeft hquiet rfl
  have hends := endsAt_stepsLeft hrun (by rw [hiter]; rfl)
  have hcont : (completeStep (((s.hashAccepted d w a).addDraws m).setEng e)).cont =
      s.cont.set d { B := meowHash s.inputBytes s.seed, T := a } := by
    show s.cont.set e.op.ca { B := e.ret, T := e.op.R } = _
    rw [hop, hret]
    rfl
  refine ⟨s.hashAccepted d w a, completeStep (((s.hashAccepted d w a).addDraws m).setEng e), hexec, ?_, rfl, rfl, ?_,
    fun c hc => ?_, fun n hn => ⟨_, run_undisturbed n hagenda, hends.busy n (hsteps ▸ hn)⟩⟩
  · rw [hsteps, run_undisturbed _ hquiet.agenda, hiter]
  · rw [hcont, Quad.get_set_same]
  · rw [hcont, Quad.get_set_ne _ _ hc]

end Sys2Proof.Machine
end

section
/-! The host interface, one access at a time (43_host_interface.md R106 to R112): which accesses the block admits, what each
slot answers to a read and to a write, and which turns are the engine's. -/

namespace Sys2Proof.Machine

open Sys2Proof.Spec

/-! ### The slots (10_state.md R13) -/

/-- No two slots have one offset. -/
theorem Reg.eq_of_offset_eq {r r' : Reg} (h : r.offset = r'.offset) : r = r' := by
  have hr : regAt r'.offset = some r := regAt_eq_some.2 h
  have hr' : regAt r'.offset = some r' := regAt_eq_some.2 rfl
  exact Option.some.inj (hr.symm.trans hr')

theorem Reg.offset_mod_eight (r : Reg) : r.offset % 8 = 0 := by
  have hsome : (regAt r.offset).isSome = true := by rw [regAt_eq_some.2 rfl]; rfl
  exact (regAt_isSome.1 hsome).1

/-- Every multiple of 8 up to 0x78 is the offset of a slot. -/
theorem exists_reg_of_offset {offset : Nat} (h8 : offset % 8 = 0) (hle : offset ≤ 0x78) :
    ∃ r : Reg, r.offset = offset := by
  obtain ⟨r, hr⟩ := Option.isSome_iff_exists.1 (regAt_isSome.2 ⟨h8, hle⟩)
  exact ⟨r, regAt_eq_some.1 hr⟩

/-! ### Admission (R106) -/

/-- An access that is not 64-bit or not at a multiple of 8 names no slot. -/
theorem admittedReg_eq_none {base addr size : Nat} (h : ¬ (size = 8 ∧ base ≤ addr ∧ (addr - base) % 8 = 0)) :
    admittedReg base addr size = none := by
  rw [Option.eq_none_iff_forall_ne_some]
  intro r hr
  obtain ⟨hsize, haddr⟩ := admittedReg_eq_some.1 hr
  have h8 := r.offset_mod_eight
  exact h ⟨hsize, by omega, by rwa [haddr, Nat.add_sub_cancel_left]⟩

section Admission
variable {s : State} {a : HostAccess} {addr size : Nat} {v : Word}

/-- An access that does not touch the window is none of the block's. -/
theorem hostAccess_outside (ha : a = .read addr size ∨ a = .write addr size v)
    (h : touchesWindow s.platform.base addr size = false) : hostAccess a s = .next s := by
  rcases ha with rfl | rfl <;> simp [hostAccess, h]

/-- An access that touches the window and names no slot is refused. -/
theorem hostAccess_unadmitted (ha : a = .read addr size ∨ a = .write addr size v)
    (ht : touchesWindow s.platform.base addr size = true) (hn : admittedReg s.platform.base addr size = none) :
    hostAccess a s = .refused (.unadmittedAccess addr size) := by
  rcases ha with rfl | rfl <;> simp [hostAccess, ht, hn]

/-- An access that names a slot is answered. -/
theorem hostAccess_admitted (ha : a = .read addr size ∨ a = .write addr size v)
    (hsome : (admittedReg s.platform.base addr size).isSome = true) : ∃ t, hostAccess a s = .next t := by
  obtain ⟨r, hr⟩ := Option.isSome_iff_exists.1 hsome
  obtain ⟨rfl, rfl⟩ := admittedReg_eq_some.1 hr
  rcases ha with rfl | rfl
  · exact ⟨_, hostAccess_read_slot s r⟩
  · obtain ⟨t, ht, -⟩ := writeReg_cases r v s
    exact ⟨t, (hostAccess_write_slot s r v).trans ht⟩

end Admission

theorem step_of_host {s : State} {a : HostAccess} {rest : List Turn} (h : s.agenda = .host a :: rest) :
    step s = hostAccess a (s.setAgenda rest) := by
  unfold step
  rw [h]

/-- Settles O48: `hostAccess_unadmitted` inside the window, `hostAccess_outside` outside it. -/
theorem unadmittedAccessIsRefused : Obligations.UnadmittedAccessIsRefused := by
  intro s addr size v rest hagenda
  obtain ⟨a, ha, hagenda⟩ : ∃ a, (a = .read addr size ∨ a = .write addr size v) ∧ s.agenda = .host a :: rest :=
    hagenda.elim (fun h => ⟨_, .inl rfl, h⟩) fun h => ⟨_, .inr rfl, h⟩
  rw [step_of_host hagenda]
  refine ⟨fun hend hstart hbad => ?_, fun hout => ?_⟩
  · exact hostAccess_unadmitted ha (decide_eq_true ⟨hend, hstart⟩) (admittedReg_eq_none hbad)
  · have htouch : touchesWindow s.platform.base addr size = false := decide_eq_false (by omega)
    exact hostAccess_outside (s := s.setAgenda rest) ha htouch

/-! ### Writes to CMD (R107) -/

/-- While a HASH runs a CMD write is dropped, whatever the word (60_exceptions.md R121). -/
theorem writeCmd_of_busy {s : State} (v : Word) (hb : s.eng.phase ≠ .idle) : writeCmd v s = .next (s.setWbusy true) :=
  if_pos ((State.busy_iff s).2 hb)

/-- Settles O41. -/
theorem stepRunsTheDecodedCommand : Obligations.StepRunsTheDecodedCommand := fun s v i rest hwrite hidle hd =>
  calc step s = writeCmd v (s.setAgenda rest) := step_of_hostWrites (r := .cmd) hwrite
    _ = exec i (s.setAgenda rest).accept := writeCmd_of_command hidle hd

/-- A table word that decodes is a CMD write that does. -/
theorem decode_of_decodeTableWord {nbits w : Nat} {i : Instr} (h : decodeTableWord nbits w = some i) :
    decode (BitVec.ofNat 64 (w % 2 ^ nbits)) = .command i := by
  unfold decodeTableWord at h
  split at h
  · next j hd => rw [hd, Option.some.inj h]
  · cases h

/-- Settles O42: the turn `withFetchWord` puts in front is the CMD write of O41, and taking it gives the turns of `s`
back. -/
theorem stepRunsTheFetchWord : Obligations.StepRunsTheFetchWord := fun s nbits w _ hidle hi =>
  stepRunsTheDecodedCommand (s.withFetchWord nbits w) _ _ s.agenda rfl hidle (decode_of_decodeTableWord hi)

/-- Settles O43. -/
theorem cmdWriteWhileBusyOnlySetsWbusy : Obligations.CmdWriteWhileBusyOnlySetsWbusy := fun s v rest hwrite hb =>
  calc step s = writeCmd v (s.setAgenda rest) := step_of_hostWrites (r := .cmd) hwrite
    _ = .next ((s.setAgenda rest).setWbusy true) := writeCmd_of_busy v hb

/-! ### Writes to the other slots (R108 to R110) -/

/-- Settles O44. -/
theorem statusWriteClearsWbusyOnly : Obligations.StatusWriteClearsWbusyOnly := fun _ _ _ hwrite =>
  step_of_hostWrites (r := .status) hwrite

/-- Settles O46. -/
theorem readOnlySlotsIgnoreWrites : Obligations.ReadOnlySlotsIgnoreWrites := by
  rintro s v rest _ (rfl | rfl | rfl) hwrite
  · exact step_of_hostWrites (r := .cap) hwrite
  · exact step_of_hostWrites (r := .reserved30) hwrite
  · exact step_of_hostWrites (r := .reserved38) hwrite

/-- The written word is the word's bytes. -/
theorem byteAt_setDataWord_inside (d : Val) (v : Word) {k j : Nat} (hk : k < 8) (hj : j < 8) :
    byteAt (setDataWord d k v) (8 * k + j) = byteAt v j := by
  rw [byteAt_setDataWord _ _ _ (by omega), if_pos (by omega), Nat.add_sub_cancel_left]

theorem byteAt_setDataWord_outside (d : Val) (v : Word) {k j : Nat} (hj : j < 64) (h : j < 8 * k ∨ 8 * k + 8 ≤ j) :
    byteAt (setDataWord d k v) j = byteAt d j := by
  rw [byteAt_setDataWord _ _ _ hj, if_neg (by omega)]

/-- Settles O45: each is its slot's write; for DATAk the bytes are `byteAt_setDataWord`'s. -/
theorem operandWritesSetTheirRegisterOnly : Obligations.OperandWritesSetTheirRegisterOnly := by
  intro s v rest
  refine ⟨step_of_hostWrites (r := .src), step_of_hostWrites (r := .len), step_of_hostWrites (r := .seed),
    fun k hk hwrite => ?_⟩
  have hstep : step s = .next ((s.setAgenda rest).setData (setDataWord s.data k v)) :=
    step_of_hostWrites (r := .data ⟨k, hk⟩) hwrite
  exact ⟨_, hstep, rfl, fun j hj => byteAt_setDataWord_inside s.data v hk hj,
    fun j hj hout => byteAt_setDataWord_outside s.data v hj hout⟩

/-! ### Reads (R111) -/

/-- A host read of a slot logs its value, and takes the turn. -/
theorem step_of_hostReads {s : State} {r : Reg} {rest : List Turn}
    (h : s.agenda = .host (.read (s.platform.base + r.offset) 8) :: rest) :
    step s = .next ((s.setAgenda rest).logRead (readReg r s)) :=
  (step_of_host h).trans (hostAccess_read_slot (s.setAgenda rest) r)

/-- The code STATUS shows is the number of R116. -/
theorem ErrCode.code_eq_errNumber (e : ErrCode) : e.code = errNumber e := by cases e <;> rfl

theorem errNumber_le (e : ErrCode) : errNumber e ≤ 4 := by cases e <;> decide

/-- The weight a flag adds to a register. -/
theorem toNat_mul_eq_ite (b : Bool) (n : Nat) : b.toNat * n = if b then n else 0 := by
  cases b with
  | true => exact Nat.one_mul n
  | false => exact Nat.zero_mul n

/-- The bits of STATUS (10_state.md R15). -/
theorem statusWord_toNat (s : State) : (statusWord s).toNat =
    (if s.wbusy then 2 ^ 8 else 0) + errNumber s.err * 2 ^ 4 + (if s.eq then 2 else 0)
      + (if s.eng.phase = .idle then 0 else 1) := by
  have hbusy : s.busy.toNat = if s.eng.phase = .idle then 0 else 1 := by simp [State.busy, Bool.toNat]
  rw [statusWord, BitVec.toNat_ofNat, ErrCode.code_eq_errNumber, toNat_mul_eq_ite, toNat_mul_eq_ite, hbusy]
  apply Nat.mod_eq_of_lt
  have herr := errNumber_le s.err
  split_ifs <;> omega

/-- The bits of CAP (10_state.md R19). -/
theorem capWord_toNat (p : Platform) : (capWord p).toNat =
    1 + (if p.supports .w256 then 2 else 0) + (if p.supports .w512 then 4 else 0) := by
  simp only [Platform.supports]
  rw [capWord, BitVec.toNat_ofNat, Nat.mul_comm 2, Nat.mul_comm 4, toNat_mul_eq_ite, toNat_mul_eq_ite]
  apply Nat.mod_eq_of_lt
  split_ifs <;> omega

/-- Settles O47: the access is the read of one slot, and each clause is about the slot at its offset. -/
theorem readsReturnTheRegisterAndChangeNothing : Obligations.ReadsReturnTheRegisterAndChangeNothing := by
  intro s rest _ h8 hle hagenda
  obtain ⟨r, rfl⟩ := exists_reg_of_offset h8 hle
  have hslot (q : Reg) (h : r.offset = q.offset) : readReg r s = readReg q s := by rw [Reg.eq_of_offset_eq h]
  refine ⟨readReg r s, step_of_hostReads hagenda, ?_, fun h => ?_, hslot .src, hslot .len, hslot .seed, fun h => ?_,
    fun k h j hj => ?_⟩
  · rintro (h | h | h)
    · exact hslot .cmd h
    · exact hslot .reserved30 h
    · exact hslot .reserved38 h
  · rw [hslot .status h]
    exact statusWord_toNat s
  · rw [hslot .cap h]
    exact capWord_toNat s.platform
  · rw [hslot (.data ⟨k, by omega⟩) h]
    exact byteAt_dataWord s.data k hj

/-! ### The turns that step the engine (R112, 30_encoding.md R57) -/

theorem step_of_engine {s : State} {rest : List Turn} (h : s.agenda = .engine :: rest) :
    step s = .next (engineStep (s.setAgenda rest)) := by
  unfold step
  rw [h]

theorem step_of_wait {s : State} {rest : List Turn} (h : s.agenda = .wait :: rest) :
    step s = if s.busy then .next (engineStep s) else .next (s.setAgenda rest) := by
  unfold step
  rw [h]

/-- Settles O58. -/
theorem engineAndWaitTurnsStepTheEngine : Obligations.EngineAndWaitTurnsStepTheEngine := by
  intro s rest
  refine ⟨step_of_engine, fun h hb => ⟨?_, engineStep_agenda s⟩, fun h hidle => ?_, step_undisturbed,
    engineStep_idle⟩
  · rw [step_of_wait h, if_pos ((State.busy_iff s).2 hb)]
  · rw [step_of_wait h, (State.busy_false_iff s).2 hidle]
    rfl

end Sys2Proof.Machine
end

section
/-! Whole programs (43_host_interface.md R112, R114): an admitted agenda is never refused, and it ends, as every step takes
a turn or brings the run in progress nearer its end. -/

namespace Sys2Proof.Machine

/-! ### Every admitted turn is answered (R106) -/

/-- A host access that the block never refuses is answered. -/
theorem hostAccess_of_admissible {s : State} {a : HostAccess} (h : Turn.admissible s.platform (.host a) = true) :
    ∃ t, hostAccess a s = .next t := by
  obtain ⟨addr, size, v, ha, hadm⟩ : ∃ addr size v, (a = .read addr size ∨ a = .write addr size v) ∧
      (touchesWindow s.platform.base addr size = false ∨ (admittedReg s.platform.base addr size).isSome = true) := by
    cases a with
    | read addr size => exact ⟨addr, size, 0#64, .inl rfl, by simpa [Turn.admissible] using h⟩
    | write addr size v => exact ⟨addr, size, v, .inr rfl, by simpa [Turn.admissible] using h⟩
  rcases hadm with hout | hsome
  · exact ⟨s, hostAccess_outside ha hout⟩
  · exact hostAccess_admitted ha hsome

/-- The next turn of an admitted agenda is answered: only a host access can be refused. -/
theorem step_of_admissible {s : State} (h : s.admissible = true) : ∃ t, step s = .next t := by
  cases hagenda : s.agenda with
  | nil => exact ⟨_, step_undisturbed hagenda⟩
  | cons x rest =>
    cases x with
    | host a =>
      have hx : Turn.admissible s.platform (.host a) = true := List.all_eq_true.1 h _ (by simp [hagenda])
      rw [step_of_host hagenda]
      exact hostAccess_of_admissible (s := s.setAgenda rest) hx
    | engine => exact ⟨_, step_of_engine hagenda⟩
    | wait =>
      rw [step_of_wait hagenda]
      split
      · exact ⟨_, rfl⟩
      · exact ⟨_, rfl⟩
    | store a b => exact ⟨_, step_of_store hagenda⟩
    | order => exact ⟨_, step_of_order hagenda⟩
    | reset => exact ⟨_, by unfold step; rw [hagenda]⟩

/-- What a step does to the turns to come: it takes the next one, or it is the engine's and takes none, the list being
empty or a run in progress. -/
theorem step_takes_turn {s t : State} (h : step s = .next t) :
    (∃ x, s.agenda = x :: t.agenda) ∨ (t = engineStep s ∧ (s.agenda = [] ∨ s.busy = true)) := by
  cases step_cases h with
  | engine rest hagenda =>
    rcases hagenda with hagenda | ⟨rfl, hempty | ⟨_, -, hbusy⟩⟩
    · exact .inl ⟨.engine, by rwa [engineStep_agenda]⟩
    · exact .inr ⟨rfl, .inl hempty⟩
    · exact .inr ⟨rfl, .inr hbusy⟩
  | passes x rest hagenda => exact .inl ⟨x, hagenda⟩
  | reads r rest hagenda => exact .inl ⟨_, hagenda⟩
  | writes r v rest t hagenda hw =>
    obtain ⟨-, hrest, -⟩ := writeCase_keeps hw
    exact .inl ⟨_, by rwa [hrest]⟩
  | stores a b rest hagenda => exact .inl ⟨_, hagenda⟩
  | orders rest hagenda => exact .inl ⟨_, hagenda⟩
  | resets rest hagenda => exact .inl ⟨_, hagenda⟩

/-- The turns still to come after a step were to come before it. -/
theorem step_agenda_subset {s t : State} (h : step s = .next t) : t.agenda ⊆ s.agenda := by
  rcases step_takes_turn h with ⟨x, hagenda⟩ | ⟨rfl, -⟩
  · rw [hagenda]
    exact List.subset_cons_self x _
  · rw [engineStep_agenda]
    exact List.Subset.refl _

theorem step_keeps_admissible {s t : State} (hadm : s.admissible = true) (h : step s = .next t) :
    t.admissible = true := by
  unfold State.admissible at *
  rw [step_platform h]
  exact List.all_eq_true.2 fun x hx => List.all_eq_true.1 hadm x (step_agenda_subset h hx)

/-- Settles O49. -/
theorem admissibleAgendaIsNeverRefused : Obligations.AdmissibleAgendaIsNeverRefused := by
  intro s hadm
  obtain ⟨t, ht⟩ := step_of_admissible hadm
  exact ⟨t, ht, step_keeps_admissible hadm ht⟩

/-! ### Every program ends (R114, R139) -/

/-- A micro-step of a run leaves it fewer steps, none when it ends the run (42_hash_engine.md R105). -/
theorem engineStep_stepsLeft_lt {s : State} (hrun : s.eng.runInv s.platform) :
    (engineStep s).eng.stepsLeft < s.eng.stepsLeft := by
  rcases engineStep_progress hrun with ⟨-, -, hleft⟩ | ⟨hidle, -⟩
  · omega
  · have hzero : (engineStep s).eng.stepsLeft = 0 := by simp [Engine.stepsLeft, hidle]
    have hpos := Engine.stepsLeft_pos (Engine.phase_ne_idle_of_runInv hrun)
    omega

/-- Before the end of a program every step takes a turn, or keeps the turns and leaves the run fewer micro-steps. -/
theorem step_decreases {s t : State} (hs : s.inv) (hfinal : s.final = false) (h : step s = .next t) :
    t.agenda.length < s.agenda.length ∨
      (t.agenda.length = s.agenda.length ∧ t.eng.stepsLeft < s.eng.stepsLeft) := by
  rcases step_takes_turn h with ⟨x, hagenda⟩ | ⟨rfl, hwhy⟩
  · left
    simp [hagenda]
  · right
    have hbusy : s.busy = true := hwhy.elim (fun hempty => by simpa [State.final, hempty] using hfinal) id
    obtain ⟨-, -, hrunning⟩ := hs
    obtain ⟨-, hrun⟩ := hrunning ((State.busy_iff s).1 hbusy)
    exact ⟨by rw [engineStep_agenda], engineStep_stepsLeft_lt hrun⟩

/-- A program that the block never refuses reaches its end: by induction on the turns to come and, among states with as
many, on the micro-steps left of the run. -/
theorem exists_run_final {s : State} (hs : s.inv) (hadm : s.admissible = true) :
    ∃ n t, Sys2Proof.core.run n s = .next t ∧ t.final = true := by
  cases hfinal : s.final with
  | true => exact ⟨0, s, run_zero s, hfinal⟩
  | false =>
    obtain ⟨t, hstep, hadm'⟩ := admissibleAgendaIsNeverRefused s hadm
    have hdown := step_decreases hs hfinal hstep
    obtain ⟨n, u, hrun, hu⟩ := exists_run_final (everyStepKeepsTheInvariant s t hs hstep) hadm'
    exact ⟨n + 1, u, (run_succ n hstep).trans hrun, hu⟩
termination_by (s.agenda.length, s.eng.stepsLeft)
decreasing_by exact Prod.lex_def.2 hdown

/-- Settles O50: the step to take is answered (O49), keeps the invariant (O53) and is a step down (`step_decreases`). -/
theorem everyAdmissibleProgramEnds : Obligations.EveryAdmissibleProgramEnds := fun _ => exists_run_final

end Sys2Proof.Machine
end

section
/-! The errors of a CMD write (60_exceptions.md R115 to R123): which writes are ILLEGAL, which index is out of RANGE, the
checks of a HASH in order, and that a failure changes ERR alone. -/

namespace Sys2Proof

open Sys2Proof.Spec

/-! ### Which CMD writes an instance refuses (30_encoding.md R54, R59, R117) -/

/-- An instance implements every command but a HASH of a width outside its P_W_SUPPORTED (R59). -/
def Instr.implementedBy (p : Platform) : Instr → Bool
  | .hash _ w _ _ => p.supports w
  | _ => true

/-- A CMD write that decodes so is ILLEGAL in this instance: Decode rejects it, or its command is not implemented. -/
def Decoded.illegalFor (p : Platform) : Decoded → Prop
  | .illegal _ => True
  | .command i => i.implementedBy p = false

/-- A write that is not ILLEGAL decodes to a command the instance implements. -/
theorem Decoded.not_illegalFor {p : Platform} {x : Decoded} :
    ¬ x.illegalFor p ↔ ∃ i, x = .command i ∧ i.implementedBy p = true := by
  cases x <;> simp [illegalFor]

/-- A check of Decode is one more cause. -/
theorem illegalFor_ite {p : Platform} {c : Prop} [Decidable c] {why : IllegalCause} {x : Decoded} :
    (if c then .illegal why else x).illegalFor p ↔ c ∨ x.illegalFor p := by
  by_cases h : c <;> simp [h, Decoded.illegalFor]

/-- A command the instance implements is ILLEGAL for that check alone. -/
theorem illegalFor_ite_command {p : Platform} {c : Prop} [Decidable c] {why : IllegalCause} {i : Instr}
    (hi : i.implementedBy p = true) : (if c then .illegal why else .command i : Decoded).illegalFor p ↔ c :=
  illegalFor_ite.trans (or_iff_left (Decoded.not_illegalFor.2 ⟨i, rfl, hi⟩))

/-- A three-bit view code is reserved or names a view. -/
theorem viewCode_cases {n : Nat} (h : n < 8) : (n = 5 ∨ n = 6) ∨ ∃ a : ViewSel, n = a.code := by
  cases ha : viewSelOfCode n with
  | some a => exact .inr ⟨a, (viewSelOfCode_eq_some.1 ha).symm⟩
  | none => left; interval_cases n <;> simp_all [viewSelOfCode]

/-- A reserved view code is ILLEGAL, whatever the command. -/
theorem withView_of_reserved {n : Nat} (k : ViewSel → Decoded) (h : n = 5 ∨ n = 6) :
    withView n k = .illegal .reservedViewWidth := by
  rcases h with rfl | rfl <;> rfl

@[simp] theorem withView_code (a : ViewSel) (k : ViewSel → Decoded) : withView a.code k = k a := by
  rw [withView, viewSelOfCode_eq_some.2 rfl]

/-- No view has a reserved code. -/
theorem ViewSel.code_ne_reserved (a : ViewSel) : ¬ (a.code = 5 ∨ a.code = 6) := by
  cases a with
  | tag => decide
  | of a => cases a <;> decide

/-- A command the instance implements is ILLEGAL for its view code only when the code is reserved. -/
theorem illegalFor_withView {p : Platform} {n : Nat} (hn : n < 8) {k : ViewSel → Instr}
    (hk : ∀ a, (k a).implementedBy p = true) :
    (withView n fun a => .command (k a)).illegalFor p ↔ n = 5 ∨ n = 6 := by
  rcases viewCode_cases hn with h | ⟨a, rfl⟩
  · simp [withView_of_reserved _ h, Decoded.illegalFor, h]
  · simp [Decoded.illegalFor, hk, a.code_ne_reserved]

/-- A HASH is ILLEGAL for the code of `tag` too (R51). -/
theorem illegalFor_withView_of_ne_tag {p : Platform} {n : Nat} (hn : n < 8) {x : ViewSel → Decoded} {q : Prop}
    (htag : (x .tag).illegalFor p) (hof : ∀ a, (x (.of a)).illegalFor p ↔ q) :
    (withView n x).illegalFor p ↔ 4 < n ∨ q := by
  rcases viewCode_cases hn with h | ⟨a, rfl⟩
  · have hlt : 4 < n := by omega
    simp [withView_of_reserved _ h, Decoded.illegalFor, hlt]
  · rw [withView_code]
    cases a with
    | tag => exact iff_of_true htag (.inl (by decide))
    | of a =>
      have hle : (ViewSel.of a).code ≤ 4 := by cases a <;> decide
      rw [hof, or_iff_right (Nat.not_lt.2 hle)]

/-- The causes of the HASH row (R54), with the instance's check of W. -/
theorem illegalFor_decodeHash (p : Platform) (v : Word) : (decodeHash v).illegalFor p ↔
    field v 6 2 ≠ 0 ∨ field v 14 4 ≠ 0 ∨ 4 < field v 8 3 ∨ field v 11 2 = 3 ∨
      (field v 11 2 = 1 ∧ p.w256 = false) ∨ (field v 11 2 = 2 ∧ p.w512 = false) := by
  have hwp : field v 11 2 < 4 := BitVec.isLt _
  rw [decodeHash, illegalFor_ite, or_assoc]
  refine or_congr_right (or_congr_right (illegalFor_withView_of_ne_tag (BitVec.isLt _) trivial fun a => ?_))
  generalize field v 11 2 = wp at hwp
  interval_cases wp <;> simp [procWidthOfCode, Decoded.illegalFor, Instr.implementedBy, Platform.supports]

/-! The rows of the other commands (R54). -/

theorem illegalFor_decodeCzero (p : Platform) (v : Word) : (decodeCzero v).illegalFor p ↔
    (field v 6 2 ≠ 0 ∨ field v 11 2 ≠ 0 ∨ field v 13 1 ≠ 0 ∨ field v 14 4 ≠ 0) ∨ field v 8 3 = 5 ∨ field v 8 3 = 6 := by
  rw [decodeCzero, illegalFor_ite, illegalFor_withView (BitVec.isLt _) fun _ => rfl]

theorem illegalFor_decodeCcopy (p : Platform) (v : Word) : (decodeCcopy v).illegalFor p ↔
    (field v 11 2 ≠ 0 ∨ field v 13 1 ≠ 0 ∨ field v 14 4 ≠ 0) ∨ field v 8 3 = 5 ∨ field v 8 3 = 6 := by
  rw [decodeCcopy, illegalFor_ite, illegalFor_withView (BitVec.isLt _) fun _ => rfl]

theorem illegalFor_decodeCget (p : Platform) (v : Word) : (decodeCget v).illegalFor p ↔
    (field v 6 2 ≠ 0 ∨ field v 11 2 ≠ 0 ∨ field v 13 1 ≠ 0) ∨ field v 8 3 = 5 ∨ field v 8 3 = 6 := by
  rw [decodeCget, illegalFor_ite, illegalFor_withView (BitVec.isLt _) fun _ => rfl]

theorem illegalFor_decodeCput (p : Platform) (v : Word) : (decodeCput v).illegalFor p ↔
    (field v 6 2 ≠ 0 ∨ field v 11 2 ≠ 0 ∨ field v 13 1 ≠ 0) ∨ field v 8 3 = 5 ∨ field v 8 3 = 6 := by
  rw [decodeCput, illegalFor_ite, illegalFor_withView (BitVec.isLt _) fun _ => rfl]

theorem illegalFor_decodeCeq (p : Platform) (v : Word) : (decodeCeq v).illegalFor p ↔
    field v 8 3 ≠ 0 ∨ field v 11 2 ≠ 0 ∨ field v 13 1 ≠ 0 ∨ field v 14 4 ≠ 0 :=
  illegalFor_ite_command rfl

/-- Decode is the check of the bits no command uses, then the row of the opcode. -/
theorem illegalFor_decode_iff_row (p : Platform) (v : Word) : (decode v).illegalFor p ↔
    field v 32 32 ≠ 0 ∨ field v 18 14 ≠ 0 ∨ (decodeRow (field v 0 4) v).illegalFor p := by
  rw [← illegalFor_ite (why := .reservedBits), ← illegalFor_ite (why := .upperHalf)]
  rfl

/-- Decode and the instance's check of W reject exactly the writes with a cause of R117. -/
theorem illegalFor_decode (p : Platform) (v : Word) : (decode v).illegalFor p ↔ illegalWrite p v := by
  have hbits : ∀ lo width, bits v lo width = field v lo width := fun _ _ => (field_eq v _ _).symm
  rw [illegalFor_decode_iff_row]
  simp only [illegalWrite, hbits]
  refine or_congr_right (or_congr_right ?_)
  unfold decodeRow
  split
  next hop =>
    rw [illegalFor_ite_command rfl]
    simp [hop]
  next hop => simp [hop, illegalFor_decodeHash]
  next hop => simp [hop, illegalFor_decodeCzero, or_assoc]
  next hop => simp [hop, illegalFor_decodeCcopy, or_assoc]
  next hop => simp [hop, illegalFor_decodeCget, or_assoc]
  next hop => simp [hop, illegalFor_decodeCput, or_assoc]
  next hop => simp [hop, illegalFor_decodeCeq]
  next =>
    have hop : 7 ≤ field v 0 4 := by simp only [imp_false] at *; omega
    exact iff_of_true trivial (.inl hop)

end Sys2Proof

namespace Sys2Proof.Machine

open Sys2Proof.Spec

/-! ### The checks of a HASH (42_hash_engine.md R90, 60_exceptions.md R122) -/

section Checks

variable {s : State} {w : ProcWidth} {aln : Bool}

/-- W outside P_W_SUPPORTED is ILLEGAL (log 8). -/
theorem exec_hash_of_not_supports (d : Fin 4) (r : ViewSel) (aln : Bool) (hw : s.platform.supports w = false) :
    exec (.hash d w r aln) s = .next (s.raise .illegal) := by
  cases r with
  | tag => rfl
  | of a =>
    simp only [exec, execHash, hw]
    rfl

/-- A misaligned SRC with the hint is ALIGN. -/
theorem exec_hash_of_misaligned (d : Fin 4) (a : ViewWidth) (hw : s.platform.supports w = true)
    (hal : misaligned aln w s.src = true) : exec (.hash d w (.of a) aln) s = .next (s.raise .align) := by
  simp only [exec, execHash, hw, hal]
  rfl

/-- An input buffer that ends above 2^64 is BUS. -/
theorem exec_hash_of_rangeWraps (d : Fin 4) (a : ViewWidth) (hw : s.platform.supports w = true)
    (hal : misaligned aln w s.src = false) (hwrap : rangeWraps s.src s.len = true) :
    exec (.hash d w (.of a) aln) s = .next (s.raise .bus) := by
  simp only [exec, execHash, hw, hal, hwrap]
  rfl

end Checks

/-- Settles O16: the outcome of each check, in order (`exec_hash_of_not_supports`, `exec_hash_of_misaligned`,
`exec_hash_of_rangeWraps`). -/
theorem hashRejectionsInPriorityOrder : Obligations.HashRejectionsInPriorityOrder := by
  intro s d w a aln
  refine ⟨exec_hash_of_not_supports d _ aln, fun hw haln hmod => ?_, fun hw hok hlen hgt => ?_, rfl⟩
  · have hal : misaligned aln w s.src = true := by simp [misaligned, haln, hmod]
    exact exec_hash_of_misaligned d a hw hal
  · have hal : misaligned aln w s.src = false := misaligned_eq_false fun h => not_not.1 fun hmod => hok ⟨h, hmod⟩
    exact exec_hash_of_rangeWraps d a hw hal (decide_eq_true ⟨hlen, hgt⟩)

/-! ### Indices out of range (R118) -/

/-- Settles O11: the element does not exist (`elemExists_iff_lt`), so both commands raise RANGE. -/
theorem indexOutOfRangeRaisesRangeOnly : Obligations.IndexOutOfRangeRaisesRangeOnly := by
  intro s c a idx hidx
  have hnone : ¬ elemExists (resolve a (s.cont.get c)) idx = true := fun h =>
    Nat.not_lt.2 hidx ((elemExists_iff_lt _ _).1 h)
  exact ⟨if_neg hnone, if_neg hnone⟩

/-! ### CMD writes (R115, R117) -/

/-- A HASH of a width the instance lacks is the only command it does not implement, and is ILLEGAL. -/
theorem exec_of_not_implementedBy {i : Instr} {s : State} (h : i.implementedBy s.platform = false) :
    exec i s = .next (s.raise .illegal) := by
  cases i with
  | hash d w r aln => exact exec_hash_of_not_supports d r aln h
  | _ => cases h

/-- Raising an error after the acceptance is raising it: both set ERR alone. -/
@[simp] theorem State.accept_raise (s : State) (e : ErrCode) : s.accept.raise e = s.raise e := rfl

/-- An idle block raises ILLEGAL for a CMD write that Decode rejects. -/
theorem writeCmd_of_illegal {s : State} {v : Word} {why : IllegalCause} (hidle : s.eng.phase = .idle)
    (hd : decode v = .illegal why) : writeCmd v s = .next (s.raise .illegal) := by
  simp [writeCmd, (State.busy_false_iff s).2 hidle, hd]

/-- An accepted CMD write that is ILLEGAL, for the word or for the instance, sets ERR alone. -/
theorem writeCmd_of_illegalFor {s : State} {v : Word} (hidle : s.eng.phase = .idle)
    (h : (decode v).illegalFor s.platform) : writeCmd v s = .next (s.raise .illegal) := by
  cases hd : decode v with
  | illegal why => exact writeCmd_of_illegal hidle hd
  | command i =>
    rw [hd] at h
    calc writeCmd v s = exec i s.accept := writeCmd_of_command hidle hd
      _ = .next (s.raise .illegal) := exec_of_not_implementedBy h

/-- Settles O5: the causes are those of Decode and of the instance's check of W together (`illegalFor_decode`). -/
theorem cmdWriteIsIllegalExactlyForItsCauses : Obligations.CmdWriteIsIllegalExactlyForItsCauses := by
  intro s v hidle
  rw [← illegalFor_decode]
  refine ⟨writeCmd_of_illegalFor hidle, fun hlegal => ?_⟩
  obtain ⟨i, hd, hi⟩ := Decoded.not_illegalFor.1 hlegal
  refine ⟨i, hd, writeCmd_of_command hidle hd, ?_⟩
  rintro d w r aln rfl
  exact hi

/-- A command completes with ERR = 0 or fails with its code and nothing else (40_container.md R61). -/
theorem exec_ok_or_raises {i : Instr} {s t : State} (h : exec i s = .next t) : t.err = .ok ∨ ∃ e, t = s.raise e := by
  cases exec_next h with
  | fails _ e => exact .inr ⟨e, rfl⟩
  | _ => left; simp

/-- Settles O18: a write that Decode rejects raises ILLEGAL, and a command that does not complete raises its error. -/
theorem failedCommandChangesErrOnly : Obligations.FailedCommandChangesErrOnly := by
  intro v s t hidle h herr
  cases hd : decode v with
  | illegal why =>
    rw [writeCmd_of_illegal hidle hd] at h
    cases h
    rfl
  | command i =>
    rw [writeCmd_of_command hidle hd] at h
    obtain hok | ⟨e, rfl⟩ := exec_ok_or_raises h
    · exact absurd hok herr
    · rfl

end Sys2Proof.Machine
end

section
/-! Reset (70_reset_and_hazards.md R129 to R131): what the reset state reads as, that it has the invariant, and the turn
that brings it about. -/

namespace Sys2Proof.Machine

/-! ### The reset state (R130) -/

/-- Every container is the reset container (10_state.md R24). -/
@[simp] theorem State.resetWith_cont_get (p : Platform) (c : Fin 4) :
    (State.resetWith p).cont.get c = Container.reset := by
  fin_cases c <;> rfl

/-- STATUS is 0: no flag is set, ERR is OK and the engine is idle (10_state.md R15). -/
theorem statusWord_resetWith (p : Platform) : statusWord (State.resetWith p) = 0#64 := by
  apply BitVec.eq_of_toNat_eq
  rw [statusWord_toNat]
  rfl

/-- The counters of the reset engine are in their ranges (10_state.md R29), as the zeros of log 2 are. -/
theorem Engine.reset_inRange : Engine.reset.inRange := ⟨Nat.zero_le _, Nat.zero_le _, Nat.zero_le _⟩

/-- With PHASE = IDLE the invariant asks for the canonical memory and the counters' ranges only. -/
theorem State.resetWith_inv (p : Platform) : (State.resetWith p).inv :=
  State.inv_of_idle (State.resetWith_mem_wf p) Engine.reset_inRange rfl

/-- Settles O51: DATA and the containers are zero values (`byteAt_zero`), and CAP reads as in every state
(`capWord_toNat`). -/
theorem resetStateIsAsTheTableSays : Obligations.ResetStateIsAsTheTableSays := by
  refine ⟨fun p => ?_, Config.platform, rfl⟩
  have hcont (c : Fin 4) : (∀ j < 64, byteAt ((State.resetWith p).cont.get c).B j = 0x00#8) ∧
      ((State.resetWith p).cont.get c).T = .w512 := by
    rw [State.resetWith_cont_get]
    exact ⟨fun j _ => byteAt_zero j, rfl⟩
  exact ⟨statusWord_resetWith p, rfl, rfl, rfl, capWord_toNat p, fun j _ => byteAt_zero j, hcont, rfl⟩

/-- Settles O54: State.reset is the reset state of one of the instances. -/
theorem resetHasTheInvariant : Obligations.ResetHasTheInvariant :=
  ⟨State.resetWith_inv, State.resetWith_inv Config.platform⟩

/-! ### The reset turn (R129, R131) -/

/-- The reset turn resets the block, whatever it was doing. -/
theorem step_of_reset {s : State} {rest : List Turn} (h : s.agenda = .reset :: rest) :
    step s = .next (resetBlock (s.setAgenda rest)) := by
  unfold step
  rw [h]

/-- Platform memory is not the block's (20_memory.md R34), and reset leaves it. -/
@[simp] theorem resetBlock_mem (s : State) : (resetBlock s).mem = s.mem := rfl

/-- Settles O52: the turn is `resetBlock` on the turns that are left (`step_of_reset`), which keeps memory whole. -/
theorem resetTurnPutsTheBlockIntoItsResetState : Obligations.ResetTurnPutsTheBlockIntoItsResetState := by
  intro s rest h
  refine ⟨resetBlock (s.setAgenda rest), step_of_reset h, rfl, fun x => ?_⟩
  rw [resetBlock_mem, State.setAgenda_mem]

end Sys2Proof.Machine
end
